-- ==== Sys2Proof/Word.lean ====
section
/-! DEFINITION. The words of CORE: the bit widths the spec gives registers, opcode fields and addresses
(spec/00_scope.md R5, R7 and R8; spec/30_encoding.md R91). -/

namespace Sys2Proof

/-- An unsigned 8-bit value: a general register, a timer, a memory cell (R5). -/
abbrev Byte := BitVec 8

/-- An unsigned 16-bit value: the opcode, PC, I and a stack slot (R5). -/
abbrev Word := BitVec 16

/-- A 4-bit field of an opcode: a register index X or Y, or a row count N (R91). -/
abbrev Nibble := BitVec 4

/-- The 12-bit address field NNN of an opcode (R91). -/
abbrev Addr12 := BitVec 12

/-- The number of cells of MEM (R5, MEM_SIZE). -/
def memSize : Nat := 4096

/-- The address the program image is loaded at, and the value of PC at construction (R5, PROG_BASE). -/
def progBase : Nat := 0x200

/-- The longest image LOAD accepts (R5, MAX_IMAGE). -/
def maxImage : Nat := memSize - progBase

end Sys2Proof
end

