-- ==== Sys2Proof/Syntax.lean ====
section
/-! DEFINITION. The 35 instructions of CORE, one constructor per row of spec/opcode_table.json in the table's
order (spec/30_encoding.md R95).  Operands are the opcode fields of R91: every register index, immediate, count
and address is held at exactly its field's width, so an operand out of range cannot be written. -/

namespace Sys2Proof

/-- One CHIP-8 instruction (R95).  `Unknown` words are not instructions: the decoder names them (R93, R97). -/
inductive Instr where
  /-- `SYS addr`, 0aaa (row 1, R123). -/
  | sys (nnn : Addr12)
  /-- `CLS`, 00E0 (row 2, R200). -/
  | cls
  /-- `RET`, 00EE (row 3, R124). -/
  | ret
  /-- `JP addr`, 1aaa (row 4, R125). -/
  | jp (nnn : Addr12)
  /-- `CALL addr`, 2aaa (row 5, R126). -/
  | call (nnn : Addr12)
  /-- `SE Vx, byte`, 3xkk (row 6, R128). -/
  | seImm (x : Nibble) (kk : Byte)
  /-- `SNE Vx, byte`, 4xkk (row 7, R129). -/
  | sneImm (x : Nibble) (kk : Byte)
  /-- `SE Vx, Vy`, 5xy0 (row 8, R130). -/
  | seReg (x y : Nibble)
  /-- `LD Vx, byte`, 6xkk (row 9, R150). -/
  | ldImm (x : Nibble) (kk : Byte)
  /-- `ADD Vx, byte`, 7xkk (row 10, R151). -/
  | addImm (x : Nibble) (kk : Byte)
  /-- `LD Vx, Vy`, 8xy0 (row 11, R152). -/
  | ldReg (x y : Nibble)
  /-- `OR Vx, Vy`, 8xy1 (row 12, R153). -/
  | orReg (x y : Nibble)
  /-- `AND Vx, Vy`, 8xy2 (row 13, R154). -/
  | andReg (x y : Nibble)
  /-- `XOR Vx, Vy`, 8xy3 (row 14, R155). -/
  | xorReg (x y : Nibble)
  /-- `ADD Vx, Vy`, 8xy4 (row 15, R156). -/
  | addReg (x y : Nibble)
  /-- `SUB Vx, Vy`, 8xy5 (row 16, R157). -/
  | sub (x y : Nibble)
  /-- `SHR Vx, Vy`, 8xy6 (row 17, R158). -/
  | shr (x y : Nibble)
  /-- `SUBN Vx, Vy`, 8xy7 (row 18, R159). -/
  | subn (x y : Nibble)
  /-- `SHL Vx, Vy`, 8xyE (row 19, R160). -/
  | shl (x y : Nibble)
  /-- `SNE Vx, Vy`, 9xy0 (row 20, R131). -/
  | sneReg (x y : Nibble)
  /-- `LD I, addr`, Aaaa (row 21, R181). -/
  | ldI (nnn : Addr12)
  /-- `JP V0, addr`, Baaa (row 22, R127). -/
  | jpV0 (nnn : Addr12)
  /-- `RND Vx, byte`, Cxkk (row 23, R161). -/
  | rnd (x : Nibble) (kk : Byte)
  /-- `DRW Vx, Vy, nibble`, Dxyn (row 24, R202). -/
  | drw (x y n : Nibble)
  /-- `SKP Vx`, Ex9E (row 25, R220). -/
  | skp (x : Nibble)
  /-- `SKNP Vx`, ExA1 (row 26, R221). -/
  | sknp (x : Nibble)
  /-- `LD Vx, DT`, Fx07 (row 27, R223). -/
  | ldVxDt (x : Nibble)
  /-- `LD Vx, K`, Fx0A (row 28, R222). -/
  | ldVxK (x : Nibble)
  /-- `LD DT, Vx`, Fx15 (row 29, R224). -/
  | ldDtVx (x : Nibble)
  /-- `LD ST, Vx`, Fx18 (row 30, R225). -/
  | ldStVx (x : Nibble)
  /-- `ADD I, Vx`, Fx1E (row 31, R182). -/
  | addI (x : Nibble)
  /-- `LD F, Vx`, Fx29 (row 32, R183). -/
  | ldF (x : Nibble)
  /-- `LD B, Vx`, Fx33 (row 33, R184). -/
  | ldB (x : Nibble)
  /-- `LD [I], Vx`, Fx55 (row 34, R185). -/
  | ldMemVx (x : Nibble)
  /-- `LD Vx, [I]`, Fx65 (row 35, R186). -/
  | ldVxMem (x : Nibble)
  deriving DecidableEq, Repr

end Sys2Proof
end

