-- ==== Sys2Proof/Decode.lean ====
section
/-! DEFINITION. The decoder, the encoder and the opcode table (spec/30_encoding.md R90-R97).  Decoding is total: every
16-bit word is one instruction or is rejected by name as `unknown` (R93).  It reads no state (R93). -/

namespace Sys2Proof

/-! ### Fields (R91) -/

/-- T = op[15:12], the family. -/
def opT (op : Word) : Nibble := op.extractLsb' 12 4
/-- X = op[11:8]. -/
def opX (op : Word) : Nibble := op.extractLsb' 8 4
/-- Y = op[7:4]. -/
def opY (op : Word) : Nibble := op.extractLsb' 4 4
/-- N = op[3:0]. -/
def opN (op : Word) : Nibble := op.extractLsb' 0 4
/-- KK = op[7:0]. -/
def opKK (op : Word) : Byte := op.extractLsb' 0 8
/-- NNN = op[11:0]. -/
def opNNN (op : Word) : Addr12 := op.extractLsb' 0 12

/-! ### Decode (R93) -/

/-- What a word decodes to: an instruction of the table, or `Unknown(op)`, the name every other word is rejected by (R97). -/
inductive Decoded where
  | instr (i : Instr)
  | unknown (op : Word)
  deriving DecidableEq, Repr

/-- The second dispatch of family 0x0, on the whole word (R93). -/
def decodeFamily0 (op : Word) : Decoded :=
  if op = 0x00E0#16 then .instr .cls
  else if op = 0x00EE#16 then .instr .ret
  else .instr (.sys (opNNN op))

/-- The second dispatch of family 0x8, on N (R93). -/
def decodeFamily8 (op : Word) : Decoded :=
  match opN op with
  | 0x0#4 => .instr (.ldReg (opX op) (opY op))
  | 0x1#4 => .instr (.orReg (opX op) (opY op))
  | 0x2#4 => .instr (.andReg (opX op) (opY op))
  | 0x3#4 => .instr (.xorReg (opX op) (opY op))
  | 0x4#4 => .instr (.addReg (opX op) (opY op))
  | 0x5#4 => .instr (.sub (opX op) (opY op))
  | 0x6#4 => .instr (.shr (opX op) (opY op))
  | 0x7#4 => .instr (.subn (opX op) (opY op))
  | 0xE#4 => .instr (.shl (opX op) (opY op))
  | _ => .unknown op

/-- The second dispatch of family 0xE, on KK (R93). -/
def decodeFamilyE (op : Word) : Decoded :=
  match opKK op with
  | 0x9E#8 => .instr (.skp (opX op))
  | 0xA1#8 => .instr (.sknp (opX op))
  | _ => .unknown op

/-- The second dispatch of family 0xF, on KK (R93). -/
def decodeFamilyF (op : Word) : Decoded :=
  match opKK op with
  | 0x07#8 => .instr (.ldVxDt (opX op))
  | 0x0A#8 => .instr (.ldVxK (opX op))
  | 0x15#8 => .instr (.ldDtVx (opX op))
  | 0x18#8 => .instr (.ldStVx (opX op))
  | 0x1E#8 => .instr (.addI (opX op))
  | 0x29#8 => .instr (.ldF (opX op))
  | 0x33#8 => .instr (.ldB (opX op))
  | 0x55#8 => .instr (.ldMemVx (opX op))
  | 0x65#8 => .instr (.ldVxMem (opX op))
  | _ => .unknown op

/-- The decode procedure of R93: the primary dispatch is on T. -/
def decode (op : Word) : Decoded :=
  match opT op with
  | 0x0#4 => decodeFamily0 op
  | 0x1#4 => .instr (.jp (opNNN op))
  | 0x2#4 => .instr (.call (opNNN op))
  | 0x3#4 => .instr (.seImm (opX op) (opKK op))
  | 0x4#4 => .instr (.sneImm (opX op) (opKK op))
  | 0x5#4 => if opN op = 0#4 then .instr (.seReg (opX op) (opY op)) else .unknown op
  | 0x6#4 => .instr (.ldImm (opX op) (opKK op))
  | 0x7#4 => .instr (.addImm (opX op) (opKK op))
  | 0x8#4 => decodeFamily8 op
  | 0x9#4 => if opN op = 0#4 then .instr (.sneReg (opX op) (opY op)) else .unknown op
  | 0xA#4 => .instr (.ldI (opNNN op))
  | 0xB#4 => .instr (.jpV0 (opNNN op))
  | 0xC#4 => .instr (.rnd (opX op) (opKK op))
  | 0xD#4 => .instr (.drw (opX op) (opY op) (opN op))
  | 0xE#4 => decodeFamilyE op
  | _ => decodeFamilyF op

/-- The opcode made of two fetched bytes, the byte at the lower address in bits 15:8 (spec/20_memory.md R63). -/
def wordOfBytes (hi lo : Byte) : Word := hi ++ lo

/-- Decoding of the two bytes of an instruction, the byte at the lower address first (R63, R93). -/
def decodeBytes (hi lo : Byte) : Decoded := decode (wordOfBytes hi lo)

/-! ### Encode (R95) -/

/-- A word of family t with a 12-bit address: taaa. -/
def packNNN (t : Nibble) (nnn : Addr12) : Word := t ++ nnn
/-- A word of family t with a register index and a byte: txkk. -/
def packXKK (t x : Nibble) (kk : Byte) : Word := t ++ (x ++ kk)
/-- A word of family t with three nibbles: txyn. -/
def packXYN (t x y n : Nibble) : Word := t ++ (x ++ (y ++ n))

/-- The word of an instruction, from the patterns of R95. -/
def encode : Instr → Word
  | .sys nnn => packNNN 0x0 nnn
  | .cls => 0x00E0
  | .ret => 0x00EE
  | .jp nnn => packNNN 0x1 nnn
  | .call nnn => packNNN 0x2 nnn
  | .seImm x kk => packXKK 0x3 x kk
  | .sneImm x kk => packXKK 0x4 x kk
  | .seReg x y => packXYN 0x5 x y 0x0
  | .ldImm x kk => packXKK 0x6 x kk
  | .addImm x kk => packXKK 0x7 x kk
  | .ldReg x y => packXYN 0x8 x y 0x0
  | .orReg x y => packXYN 0x8 x y 0x1
  | .andReg x y => packXYN 0x8 x y 0x2
  | .xorReg x y => packXYN 0x8 x y 0x3
  | .addReg x y => packXYN 0x8 x y 0x4
  | .sub x y => packXYN 0x8 x y 0x5
  | .shr x y => packXYN 0x8 x y 0x6
  | .subn x y => packXYN 0x8 x y 0x7
  | .shl x y => packXYN 0x8 x y 0xE
  | .sneReg x y => packXYN 0x9 x y 0x0
  | .ldI nnn => packNNN 0xA nnn
  | .jpV0 nnn => packNNN 0xB nnn
  | .rnd x kk => packXKK 0xC x kk
  | .drw x y n => packXYN 0xD x y n
  | .skp x => packXKK 0xE x 0x9E
  | .sknp x => packXKK 0xE x 0xA1
  | .ldVxDt x => packXKK 0xF x 0x07
  | .ldVxK x => packXKK 0xF x 0x0A
  | .ldDtVx x => packXKK 0xF x 0x15
  | .ldStVx x => packXKK 0xF x 0x18
  | .addI x => packXKK 0xF x 0x1E
  | .ldF x => packXKK 0xF x 0x29
  | .ldB x => packXKK 0xF x 0x33
  | .ldMemVx x => packXKK 0xF x 0x55
  | .ldVxMem x => packXKK 0xF x 0x65

/-- The high byte of a word, stored at the lower address (R63). -/
def hiByte (op : Word) : Byte := op.extractLsb' 8 8
/-- The low byte of a word, stored at the higher address (R63). -/
def loByte (op : Word) : Byte := op.extractLsb' 0 8

/-! ### The opcode table, a second description of the encodings (R95, opcode_table.json) -/

/-- One row of spec/opcode_table.json: a word matches when `op AND mask = match` and it is not one of `except`. -/
structure OpRow where
  row : Nat
  pattern : Word
  mask : Word
  except : List Word
  deriving DecidableEq, Repr

/-- The word matches the row. -/
def OpRow.matches (r : OpRow) (op : Word) : Bool := op &&& r.mask == r.pattern && !r.except.contains op

/-- Rows 1 to 10 of the table. -/
def opcodeRowsA : List OpRow :=
  [⟨1, 0x0000#16, 0xF000#16, [0x00E0#16, 0x00EE#16]⟩,
   ⟨2, 0x00E0#16, 0xFFFF#16, []⟩,
   ⟨3, 0x00EE#16, 0xFFFF#16, []⟩,
   ⟨4, 0x1000#16, 0xF000#16, []⟩,
   ⟨5, 0x2000#16, 0xF000#16, []⟩,
   ⟨6, 0x3000#16, 0xF000#16, []⟩,
   ⟨7, 0x4000#16, 0xF000#16, []⟩,
   ⟨8, 0x5000#16, 0xF00F#16, []⟩,
   ⟨9, 0x6000#16, 0xF000#16, []⟩,
   ⟨10, 0x7000#16, 0xF000#16, []⟩]

/-- Rows 11 to 20 of the table. -/
def opcodeRowsB : List OpRow :=
  [⟨11, 0x8000#16, 0xF00F#16, []⟩,
   ⟨12, 0x8001#16, 0xF00F#16, []⟩,
   ⟨13, 0x8002#16, 0xF00F#16, []⟩,
   ⟨14, 0x8003#16, 0xF00F#16, []⟩,
   ⟨15, 0x8004#16, 0xF00F#16, []⟩,
   ⟨16, 0x8005#16, 0xF00F#16, []⟩,
   ⟨17, 0x8006#16, 0xF00F#16, []⟩,
   ⟨18, 0x8007#16, 0xF00F#16, []⟩,
   ⟨19, 0x800E#16, 0xF00F#16, []⟩,
   ⟨20, 0x9000#16, 0xF00F#16, []⟩]

/-- Rows 21 to 26 of the table. -/
def opcodeRowsC : List OpRow :=
  [⟨21, 0xA000#16, 0xF000#16, []⟩,
   ⟨22, 0xB000#16, 0xF000#16, []⟩,
   ⟨23, 0xC000#16, 0xF000#16, []⟩,
   ⟨24, 0xD000#16, 0xF000#16, []⟩,
   ⟨25, 0xE09E#16, 0xF0FF#16, []⟩,
   ⟨26, 0xE0A1#16, 0xF0FF#16, []⟩]

/-- Rows 27 to 35 of the table. -/
def opcodeRowsD : List OpRow :=
  [⟨27, 0xF007#16, 0xF0FF#16, []⟩,
   ⟨28, 0xF00A#16, 0xF0FF#16, []⟩,
   ⟨29, 0xF015#16, 0xF0FF#16, []⟩,
   ⟨30, 0xF018#16, 0xF0FF#16, []⟩,
   ⟨31, 0xF01E#16, 0xF0FF#16, []⟩,
   ⟨32, 0xF029#16, 0xF0FF#16, []⟩,
   ⟨33, 0xF033#16, 0xF0FF#16, []⟩,
   ⟨34, 0xF055#16, 0xF0FF#16, []⟩,
   ⟨35, 0xF065#16, 0xF0FF#16, []⟩]

/-- The table of R95, all 35 rows. -/
def opcodeTable : List OpRow := opcodeRowsA ++ opcodeRowsB ++ opcodeRowsC ++ opcodeRowsD

/-- The rows a word matches. -/
def matchingRows (op : Word) : List OpRow := opcodeTable.filter (·.matches op)

/-- The number of an instruction's row in the table of R95. -/
def Instr.row : Instr → Nat
  | .sys _ => 1
  | .cls => 2
  | .ret => 3
  | .jp _ => 4
  | .call _ => 5
  | .seImm _ _ => 6
  | .sneImm _ _ => 7
  | .seReg _ _ => 8
  | .ldImm _ _ => 9
  | .addImm _ _ => 10
  | .ldReg _ _ => 11
  | .orReg _ _ => 12
  | .andReg _ _ => 13
  | .xorReg _ _ => 14
  | .addReg _ _ => 15
  | .sub _ _ => 16
  | .shr _ _ => 17
  | .subn _ _ => 18
  | .shl _ _ => 19
  | .sneReg _ _ => 20
  | .ldI _ => 21
  | .jpV0 _ => 22
  | .rnd _ _ => 23
  | .drw _ _ _ => 24
  | .skp _ => 25
  | .sknp _ => 26
  | .ldVxDt _ => 27
  | .ldVxK _ => 28
  | .ldDtVx _ => 29
  | .ldStVx _ => 30
  | .addI _ => 31
  | .ldF _ => 32
  | .ldB _ => 33
  | .ldMemVx _ => 34
  | .ldVxMem _ => 35

/-! ### The host's question about a table word -/

/-- The instruction the decoder reads from a table row's word: the low `nbits` bits of `w`, every higher bit 0, laid out as the
hardware stores the word (high byte first, R63) and given to the decoder; `none` where it is rejected as unknown. -/
def decodeTableWord (nbits w : Nat) : Option Instr :=
  let op : Word := BitVec.ofNat 16 (w % 2 ^ nbits)
  match decodeBytes (hiByte op) (loByte op) with
  | .instr i => some i
  | .unknown _ => none

end Sys2Proof
end

