-- ==== Sys2Proof/Config.lean ====
section
/-! DEFINITION. What an implementation fixes, and the free values.  `Config` is the one configuration record of
spec/00_scope.md R6.  The two opaque constants have no body: nothing in Lean can evaluate them, so what is proved with
them holds for every value they could have. -/

namespace Sys2Proof

/-- UNKNOWN_OPCODE_POLICY (R6, spec/60_exceptions.md R246): what executing an `Unknown` word does.  The spec gives no default. -/
inductive UnknownPolicy where
  /-- The word raises UnknownOpcode. -/
  | halt
  /-- The word advances PC by 2 and does nothing else. -/
  | skip
  deriving DecidableEq, Repr, Inhabited

/-- SYS_POLICY (R6, spec/41_control_flow.md R123). -/
inductive SysPolicy where
  /-- `SYS addr` advances PC by 2. -/
  | nop
  /-- `SYS addr` raises SysUnsupported. -/
  | halt
  deriving DecidableEq, Repr

/-- SHIFT_SOURCE (R6, spec/42_alu.md R158 and R160): the register a shift reads. -/
inductive ShiftSource where
  | vy
  | vx
  deriving DecidableEq, Repr

/-- The configuration record of R6.  It is fixed for the life of a model instance, and no instruction reads it as data or
writes it (spec/10_state.md R31).  The types hold the ranges of R6: FONT is 80 bytes and FONT_BASE is 0x000 to 0x1B0. -/
structure Config where
  /-- UNKNOWN_OPCODE_POLICY: `none` where no value has been given (R6: no default); the free value below then stands for it. -/
  unknownPolicy : Option UnknownPolicy
  sysPolicy : SysPolicy
  shiftSource : ShiftSource
  /-- LOGIC_VF_RESET. -/
  logicVfReset : Bool
  /-- PROTECT_LOW_MEMORY. -/
  protectLowMemory : Bool
  fontBase : Fin 0x1B1
  font : Vector Byte 80
  deriving DecidableEq, Repr

/-- The default FONT (spec/10_state.md R33): glyph d is bytes 5d to 5d + 4, one 8-pixel row a byte. -/
def Config.defaultFont : Vector Byte 80 :=
  #v[0xF0, 0x90, 0x90, 0x90, 0xF0, 0x20, 0x60, 0x20, 0x20, 0x70,
     0xF0, 0x10, 0xF0, 0x80, 0xF0, 0xF0, 0x10, 0xF0, 0x10, 0xF0,
     0x90, 0x90, 0xF0, 0x10, 0x10, 0xF0, 0x80, 0xF0, 0x10, 0xF0,
     0xF0, 0x80, 0xF0, 0x90, 0xF0, 0xF0, 0x10, 0x20, 0x40, 0x40,
     0xF0, 0x90, 0xF0, 0x90, 0xF0, 0xF0, 0x90, 0xF0, 0x10, 0xF0,
     0xF0, 0x90, 0xF0, 0x90, 0x90, 0xE0, 0x90, 0xE0, 0x90, 0xE0,
     0xF0, 0x80, 0x80, 0x80, 0xF0, 0xE0, 0x90, 0x90, 0x90, 0xE0,
     0xF0, 0x80, 0xF0, 0x80, 0xF0, 0xF0, 0x80, 0xF0, 0x80, 0x80]

/-- The record with this spec's values of R6, for a given UNKNOWN_OPCODE_POLICY, which has no default and is an argument
(R6, R246); `none` leaves it open. -/
def Config.standard (u : Option UnknownPolicy) : Config where
  unknownPolicy := u
  sysPolicy := .nop
  shiftSource := .vy
  logicVfReset := true
  protectLowMemory := true
  fontBase := 0
  font := Config.defaultFont

/-- The UNKNOWN_OPCODE_POLICY of a machine whose configuration gives none, the machine after reset among them: OPEN in the spec
(D16, R246), so a free value.  DESIGN CHOICE, safe: what is proved with it holds under HALT and under SKIP
(notes/assumptions/2.md). -/
opaque Config.unknownOpcodePolicy : UnknownPolicy

/-- The UNKNOWN_OPCODE_POLICY a configuration runs under. -/
def Config.unknownWordPolicy (c : Config) : UnknownPolicy :=
  c.unknownPolicy.getD Config.unknownOpcodePolicy

/-- The n-th random byte the machine draws when the host has queued none: a free input with no law (spec/10_state.md R36).
DESIGN CHOICE (the form; the spec leaves the value free), safe: whatever is proved with it holds for every byte (notes/assumptions/3.md). -/
opaque Config.rndByte : Nat → Byte

end Sys2Proof
end

