-- ==== Sys2Proof/Machine/State.lean ====
section
/-! DEFINITION. The state of the machine as plain data (spec/10_state.md R20): the Machine State's eleven components, the
configuration record of spec/00_scope.md R6, and the host's side of the interface (R34, R38).  State.reset is construction
(R39; spec/70_reset_and_hazards.md R280). -/

namespace Sys2Proof.Machine

/-- The faults a Cycle can raise (spec/60_exceptions.md R241, codes 1 to 6).  CapacityExceeded, code 7, is LOAD's and never reaches
the FAULT latch: it is a `LoadReply`. -/
inductive FaultCode where
  | stackOverflow
  | stackUnderflow
  | unknownOpcode
  | addressOutOfRange
  | protectedWrite
  | sysUnsupported
  deriving DecidableEq, Repr

/-- A fault record (R241): the code, the address P of the instruction, its word (absent for a fetch fault), and the address the
table of R241 names.  An address is an exact natural number, which may exceed 16 bits (spec/20_memory.md R64). -/
structure FaultRecord where
  code : FaultCode
  p : Word
  op : Option Word
  addr : Option Nat
  deriving DecidableEq, Repr

/-- DISP: 32 rows of 64 cells, `true` for on (R28).  Row y is the y-th vector, and column x its x-th entry. -/
abbrev Display := Vector (Vector Bool 64) 32

/-- What LOAD returned to its caller (spec/70_reset_and_hazards.md R283). -/
inductive LoadReply where
  | ok
  | capacityExceeded
  deriving DecidableEq, Repr

/-- One operation of the host on CORE (R34; spec/70_reset_and_hazards.md R293). -/
inductive HostOp where
  /-- One Interpreter Cycle (spec/60_exceptions.md R240). -/
  | cycle
  /-- One Timer Tick (R260). -/
  | tick
  /-- KEY[k] <- b (spec/70_reset_and_hazards.md R292). -/
  | setKey (k : Nibble) (b : Bool)
  /-- The Loader (R283). -/
  | load (image : List Byte)
  /-- Construct a new Machine State (R280, R293). -/
  | construct
  deriving DecidableEq, Repr

/-- The host's side: what the host has queued and what it has been told.  The model's own, no component of R20. -/
structure Env where
  /-- The operations the host has queued, the next one first.  When none is queued the host issues CYCLE
  (DESIGN CHOICE, notes/assumptions/4.md). -/
  ops : List HostOp
  /-- The bytes the host has queued on RND_IN, the next one first (R36). -/
  rndIn : List Byte
  /-- How many random bytes have been drawn beyond those the host queued: the argument of the free value `Config.rndByte`. -/
  rndCount : Nat
  /-- LOAD is still a move of the boot sequence: no CYCLE and no successful LOAD since construction
  (spec/70_reset_and_hazards.md R290). -/
  loadOpen : Bool
  /-- What the last LOAD since construction returned (R283). -/
  loadReply : Option LoadReply
  deriving DecidableEq, Repr

/-- The Machine State of CORE (R20), with the configuration it runs under and the host's side. -/
structure State where
  /-- MEM, 4096 bytes (R32): the cells that differ from what an unlisted address reads as, addresses rising. -/
  mem : List Host.Cell
  /-- V0 to VF (R22). -/
  v : Vector Byte 16
  /-- The index register I (R25). -/
  i : Word
  /-- PC (R24). -/
  pc : Word
  /-- STACK, 16 slots (R26). -/
  stack : Vector Word 16
  /-- SP, 0 to 16 (R26). -/
  sp : Fin 17
  /-- The delay timer DT (R27). -/
  dt : Byte
  /-- The sound timer ST (R27). -/
  st : Byte
  /-- DISP (R28). -/
  disp : Display
  /-- KEY, `true` for held (R29). -/
  key : Vector Bool 16
  /-- The FAULT latch (R30). -/
  fault : Option FaultRecord
  /-- The configuration record of R6.  Not a component of R20 and never written by a step: an argument of the model that rides in
  the state (DESIGN CHOICE, notes/assumptions/1.md). -/
  cfg : Config
  /-- The host's side of the interface. -/
  env : Env
  deriving DecidableEq, Repr

/-- The ways a step stops with a fault: none.  Every fault of R241 is taken (spec/60_exceptions.md R244): the step answers a next
state whose FAULT latch holds the record, and Ticks and key changes go on after it (R245, R263).  Safe: no run ends here. -/
inductive Fault
  deriving DecidableEq, Repr

/-- The ways a step is refused. -/
inductive Refusal where
  /-- Raised by an arm of `exec` whose instruction has no meaning yet.  No arm does.  Safe: nothing is claimed past it. -/
  | notModelled (mnemonic : String)
  /-- Raised by the host operation LOAD after the first CYCLE or after a successful LOAD, which is outside the spec
  (spec/70_reset_and_hazards.md R290; spec/93_implementation_defined.md U19, "refuse").  Safe: nothing is claimed past it. -/
  | loadOutsideBoot
  deriving DecidableEq, Repr

/-- The answer of a step or a meaning. -/
abbrev Result := Host.Outcome State Fault Refusal

/-- The host's side at construction: nothing queued, no random byte drawn, LOAD still to come. -/
def Env.initial : Env where
  ops := []
  rndIn := []
  rndCount := 0
  loadOpen := true
  loadReply := none

/-- Construction under a configuration and beside a host (R39; spec/70_reset_and_hazards.md R280).  MEM lists nothing: an unlisted
address reads as the font or as zero. -/
def State.construct (c : Config) (e : Env) : State where
  mem := []
  v := Vector.replicate 16 0
  i := 0
  pc := 0x200
  stack := Vector.replicate 16 0
  sp := 0
  dt := 0
  st := 0
  disp := Vector.replicate 32 (Vector.replicate 64 false)
  key := Vector.replicate 16 false
  fault := none
  cfg := c
  env := e

/-- The machine right after reset: construction with this spec's configuration values (R6), UNKNOWN_OPCODE_POLICY not given
and so free. -/
def State.reset : State :=
  State.construct (Config.standard none) Env.initial

end Sys2Proof.Machine
end

