-- ==== Sys2Proof/Machine/Ops.lean ====
section
/-! DEFINITION. The named operations over memory, registers, the stack and the FAULT latch that the meanings share.  Every
register has one home, and every read or write of it goes through its accessor here.  Raising a fault, the machine's
only exception entry, is `raise`; there is no return from it (spec/60_exceptions.md R249, R250). -/

namespace Sys2Proof.Machine

/-! ### Memory cells (spec/20_memory.md R60, R64, R68) -/

/-- What an address that memory does not list reads as: its value at construction, the font byte in FONT_BASE to FONT_BASE + 79
and 0 elsewhere (spec/10_state.md R33, R39). -/
def unlisted (c : Config) (a : Nat) : Byte :=
  if h : c.fontBase.val ≤ a ∧ a < c.fontBase.val + 80 then c.font[a - c.fontBase.val]'(by omega) else 0

/-- The byte memory lists at an address, if it lists one. -/
def Memory.find : List Host.Cell → Nat → Option Byte
  | [], _ => none
  | (b, w) :: rest, a => if a = b then some w else Memory.find rest a

/-- The byte at an address: the listed one, or what an unlisted address reads as. -/
def Memory.read (c : Config) (m : List Host.Cell) (a : Nat) : Byte :=
  (Memory.find m a).getD (unlisted c a)

/-- The list without the entry of address a. -/
def Memory.erase : List Host.Cell → Nat → List Host.Cell
  | [], _ => []
  | (b, w) :: rest, a => if a = b then Memory.erase rest a else (b, w) :: Memory.erase rest a

/-- The list with an entry for address a, before the first higher address. -/
def Memory.insert : List Host.Cell → Nat → Byte → List Host.Cell
  | [], a, v => [(a, v)]
  | (b, w) :: rest, a, v => if a < b then (a, v) :: (b, w) :: rest else (b, w) :: Memory.insert rest a v

/-- Memory with byte v at address a.  The list stays in its one form: addresses rising, and no entry equal to what its address reads
as unlisted, so that writing that value removes the entry. -/
def Memory.write (c : Config) (m : List Host.Cell) (a : Nat) (v : Byte) : List Host.Cell :=
  if v = unlisted c a then Memory.erase m a else Memory.insert (Memory.erase m a) a v

/-- Every address the list holds is at least `lo`, below 4096, and above the one before it, and no entry equals what its address
reads as unlisted. -/
def Memory.wfFrom (c : Config) : Nat → List Host.Cell → Bool
  | _, [] => true
  | lo, (a, v) :: rest => decide (lo ≤ a) && decide (a < memSize) && (v != unlisted c a) && Memory.wfFrom c (a + 1) rest

/-- The one form of memory under a configuration. -/
def Memory.wf (c : Config) (m : List Host.Cell) : Bool := Memory.wfFrom c 0 m

/-- The byte at an address of the machine's memory (R9, MemRead).  The range check stands before it, in `check`. -/
def State.readByte (s : State) (a : Nat) : Byte := Memory.read s.cfg s.mem a

/-- The machine with byte v stored at address a (R9, MemWrite).  The checks stand before it, in `check`. -/
def State.writeByte (s : State) (a : Nat) (v : Byte) : State := { s with mem := Memory.write s.cfg s.mem a v }

/-- The n bytes from an address on, in ascending order (R62). -/
def State.readBytes (s : State) (base n : Nat) : List Byte :=
  (List.range n).map fun i => s.readByte (base + i)

/-- The machine with the bytes stored from an address on, in ascending order (R62). -/
def State.writeBytes (s : State) (base : Nat) : List Byte → State
  | [] => s
  | b :: rest => (s.writeByte base b).writeBytes (base + 1) rest

/-! ### Address checks (spec/43_index_memory.md R180; spec/20_memory.md R64, R65) -/

/-- `check(a, w)` of R180: the fault an access to the exact address a raises, if any.  `w` is true for a write. -/
def check (c : Config) (w : Bool) (a : Nat) : Option FaultCode :=
  if 0xFFF < a then some .addressOutOfRange
  else if w && c.protectLowMemory && decide (a < 0x200) then some .protectedWrite
  else none

/-- The first of the n addresses from `base` on, in ascending order, whose check fails, with its fault (spec/60_exceptions.md R247
step 5). -/
def firstFailure (c : Config) (w : Bool) (base n : Nat) : Option (FaultCode × Nat) :=
  (List.range n).findSome? fun i => (check c w (base + i)).map fun f => (f, base + i)

/-! ### Registers -/

/-- V[k] (R22). -/
def State.reg (s : State) (k : Nibble) : Byte := s.v[k.toNat]'k.isLt

/-- V[k] <- b (R22). -/
def State.setReg (s : State) (k : Nibble) (b : Byte) : State := { s with v := s.v.set k.toNat b k.isLt }

/-- The index of VF, the flag register (R23). -/
def vF : Nibble := 0xF

/-- All sixteen registers written at once, as the block load does. -/
def State.setRegs (s : State) (v : Vector Byte 16) : State := { s with v := v }

/-- I <- w (R25). -/
def State.setI (s : State) (w : Word) : State := { s with i := w }

/-- PC <- w (R24). -/
def State.setPc (s : State) (w : Word) : State := { s with pc := w }

/-- DT <- b (R27). -/
def State.setDt (s : State) (b : Byte) : State := { s with dt := b }

/-- ST <- b (R27). -/
def State.setSt (s : State) (b : Byte) : State := { s with st := b }

/-- DISP <- d (R28). -/
def State.setDisp (s : State) (d : Display) : State := { s with disp := d }

/-- KEY[k] (R29). -/
def State.keyHeld (s : State) (k : Nibble) : Bool := s.key[k.toNat]'k.isLt

/-- KEY[k] <- b (spec/70_reset_and_hazards.md R292). -/
def State.setKey (s : State) (k : Nibble) (b : Bool) : State := { s with key := s.key.set k.toNat b k.isLt }

/-- The host's side <- e. -/
def State.setEnv (s : State) (e : Env) : State := { s with env := e }

/-! ### The program counter (spec/41_control_flow.md R121, R122) -/

/-- PC <- P + 2. -/
def State.advance (s : State) : State := s.setPc (s.pc + 2)

/-- PC <- P + 4 when the condition holds and P + 2 when it does not. -/
def State.skipIf (s : State) (b : Bool) : State := s.setPc (if b then s.pc + 4 else s.pc + 2)

/-! ### The stack (spec/10_state.md R26) -/

/-- STACK[SP] <- w, then SP <- SP + 1.  `none` when SP = 16. -/
def State.push (s : State) (w : Word) : Option State :=
  if h : s.sp.val < 16 then
    some { s with stack := s.stack.set s.sp.val w h, sp := ⟨s.sp.val + 1, by omega⟩ }
  else none

/-- SP <- SP - 1, with the value of STACK[SP] after it.  The slot keeps its value.  `none` when SP = 0. -/
def State.pop (s : State) : Option (Word × State) :=
  if h : 0 < s.sp.val then
    some (s.stack[s.sp.val - 1]'(by omega), { s with sp := ⟨s.sp.val - 1, by omega⟩ })
  else none

/-! ### Taking a fault (spec/60_exceptions.md R244, R249) -/

/-- `raise F(info)`: every component stays exactly as it was, with PC = P, and FAULT takes the record.  The cycle ends with a next
state: nothing else happens, no vector is taken and no register is saved (R249).  There is no return (R250): only a new
construction clears FAULT (R245). -/
def raise (code : FaultCode) (op : Option Word) (addr : Option Nat) (s : State) : Result :=
  .next { s with fault := some { code := code, p := s.pc, op := op, addr := addr } }

/-- Runs `body` when every one of the n addresses from `base` on passes its check, and otherwise raises the first failure for the
instruction i.  Every check comes before any write (spec/00_scope.md R10). -/
def guarded (i : Instr) (w : Bool) (base n : Nat) (s : State) (body : State) : Result :=
  match firstFailure s.cfg w base n with
  | some (code, a) => raise code (some (encode i)) (some a) s
  | none => .next body

/-! ### The random input (spec/10_state.md R36) -/

/-- `draw RND`: the byte the host queued, or the next free value where it queued none, and the host's side after the draw. -/
def Env.draw (e : Env) : Byte × Env :=
  match e.rndIn with
  | r :: rest => (r, { e with rndIn := rest })
  | [] => (Config.rndByte e.rndCount, { e with rndCount := e.rndCount + 1 })

end Sys2Proof.Machine
end

