-- ==== Sys2Proof/Machine/Operands.lean ====
section
/-! DEFINITION. The operand forms (spec/30_encoding.md R92; spec/43_index_memory.md R180): registers by index are `State.reg`; here
are the widened immediates, the effective address, the low-nibble indices, the shift source and the glyph address. -/

namespace Sys2Proof.Machine

/-- `zext_16(NNN)`: the 12-bit address widened with zeros (R92). -/
def zext16 (nnn : Addr12) : Word := nnn.setWidth 16

/-- The exact address I, a natural number: the i-th byte of a transfer is at I + i, with no wrap (R180). -/
def State.base (s : State) : Nat := s.i.toNat

/-- The number of registers a block transfer moves, V0 to VX (spec/43_index_memory.md R185, R186). -/
def blockCount (x : Nibble) : Nat := x.toNat + 1

/-- (I + n) mod 2^16 (R180). -/
def State.indexPlus (s : State) (n : Nat) : Word := BitVec.ofNat 16 (s.base + n)

/-- `x AND 0xF`, the index of a key or of a glyph (spec/45_keypad_timers.md R220; spec/43_index_memory.md R183). -/
def lowNibble (b : Byte) : Nibble := (b &&& 0x0F#8).setWidth 4

/-- FONT_BASE + 5 * d, the address of the glyph of digit d (spec/10_state.md R33). -/
def glyphAddress (c : Config) (d : Nibble) : Word := BitVec.ofNat 16 (c.fontBase.val + 5 * d.toNat)

/-- The value a shift reads: V[Y] when SHIFT_SOURCE = VY, else V[X] (spec/42_alu.md R158, R160). -/
def State.shiftOperand (s : State) (x y : Nibble) : Byte :=
  match s.cfg.shiftSource with
  | .vy => s.reg y
  | .vx => s.reg x

/-- The registers V0 to VX in ascending order, the bytes a block store writes (spec/43_index_memory.md R185). -/
def State.blockRegs (s : State) (x : Nibble) : List Byte := s.v.toList.take (blockCount x)

/-- The decimal digits of a byte, hundreds first (spec/43_index_memory.md R184). -/
def bcdDigits (b : Byte) : List Byte :=
  [BitVec.ofNat 8 (b.toNat / 100), BitVec.ofNat 8 (b.toNat / 10 % 10), BitVec.ofNat 8 (b.toNat % 10)]

end Sys2Proof.Machine
end

