-- ==== Sys2Proof/Machine/Flags.lean ====
section
/-! DEFINITION. The 8-bit arithmetic and the flag each operation leaves in VF (spec/42_alu.md R162, R163).  Results are computed
exactly on naturals or integers and narrowed at the end. -/

namespace Sys2Proof.Machine

/-- A flag as the byte VF holds. -/
def flagByte (b : Bool) : Byte := if b then 1 else 0

/-- (x + y) mod 256 (R156). -/
def sumByte (x y : Byte) : Byte := BitVec.ofNat 8 (x.toNat + y.toNat)

/-- Carry: the exact sum exceeds 255 (R156). -/
def carryFlag (x y : Byte) : Bool := decide (255 < x.toNat + y.toNat)

/-- (x - y) mod 256, the difference computed as an integer (R157). -/
def differenceByte (x y : Byte) : Byte := BitVec.ofInt 8 ((x.toNat : Int) - (y.toNat : Int))

/-- Not borrow: x >= y (R157). -/
def notBorrowFlag (x y : Byte) : Bool := decide (y.toNat ≤ x.toNat)

/-- src >> 1 (R158). -/
def shiftRightByte (src : Byte) : Byte := BitVec.ofNat 8 (src.toNat / 2)

/-- The bit a right shift moves out, bit 0 (R158). -/
def shiftRightFlag (src : Byte) : Bool := src.getLsbD 0

/-- (src << 1) mod 256 (R160). -/
def shiftLeftByte (src : Byte) : Byte := BitVec.ofNat 8 (src.toNat * 2)

/-- The bit a left shift moves out, bit 7 (R160). -/
def shiftLeftFlag (src : Byte) : Bool := src.getLsbD 7

/-- V[X] <- result, then V[F] <- flag: the flag is written last and stands when X = F (spec/00_scope.md R10, R163). -/
def State.setRegFlag (s : State) (x : Nibble) (result : Byte) (flag : Bool) : State :=
  (s.setReg x result).setReg vF (flagByte flag)

/-- V[X] <- result, then V[F] <- 0 if LOGIC_VF_RESET (R153 to R155). -/
def State.setRegLogic (s : State) (x : Nibble) (result : Byte) : State :=
  if s.cfg.logicVfReset then (s.setReg x result).setReg vF 0 else s.setReg x result

end Sys2Proof.Machine
end

