-- ==== Sys2Proof/Machine/Alu.lean ====
section
/-! DEFINITION. The ALU and register operations (spec/42_alu.md R150 to R161).  Operands are read from the state before any write
(spec/00_scope.md R10). -/

namespace Sys2Proof.Machine

/-- `LD Vx, byte` (R150). -/
def execLdImm (x : Nibble) (kk : Byte) (s : State) : Result := .next (s.setReg x kk).advance

/-- `ADD Vx, byte` (R151): VF is not written as a flag. -/
def execAddImm (x : Nibble) (kk : Byte) (s : State) : Result := .next (s.setReg x (sumByte (s.reg x) kk)).advance

/-- `LD Vx, Vy` (R152). -/
def execLdReg (x y : Nibble) (s : State) : Result := .next (s.setReg x (s.reg y)).advance

/-- `OR Vx, Vy` (R153). -/
def execOrReg (x y : Nibble) (s : State) : Result := .next (s.setRegLogic x (s.reg x ||| s.reg y)).advance

/-- `AND Vx, Vy` (R154). -/
def execAndReg (x y : Nibble) (s : State) : Result := .next (s.setRegLogic x (s.reg x &&& s.reg y)).advance

/-- `XOR Vx, Vy` (R155). -/
def execXorReg (x y : Nibble) (s : State) : Result := .next (s.setRegLogic x (s.reg x ^^^ s.reg y)).advance

/-- `ADD Vx, Vy` (R156). -/
def execAddReg (x y : Nibble) (s : State) : Result :=
  .next (s.setRegFlag x (sumByte (s.reg x) (s.reg y)) (carryFlag (s.reg x) (s.reg y))).advance

/-- `SUB Vx, Vy` (R157). -/
def execSub (x y : Nibble) (s : State) : Result :=
  .next (s.setRegFlag x (differenceByte (s.reg x) (s.reg y)) (notBorrowFlag (s.reg x) (s.reg y))).advance

/-- `SHR Vx, Vy` (R158). -/
def execShr (x y : Nibble) (s : State) : Result :=
  .next (s.setRegFlag x (shiftRightByte (s.shiftOperand x y)) (shiftRightFlag (s.shiftOperand x y))).advance

/-- `SUBN Vx, Vy` (R159). -/
def execSubn (x y : Nibble) (s : State) : Result :=
  .next (s.setRegFlag x (differenceByte (s.reg y) (s.reg x)) (notBorrowFlag (s.reg y) (s.reg x))).advance

/-- `SHL Vx, Vy` (R160). -/
def execShl (x y : Nibble) (s : State) : Result :=
  .next (s.setRegFlag x (shiftLeftByte (s.shiftOperand x y)) (shiftLeftFlag (s.shiftOperand x y))).advance

/-- `RND Vx, byte` (R161): one byte is drawn from RND_IN. -/
def execRnd (x : Nibble) (kk : Byte) (s : State) : Result :=
  .next ((s.setReg x (s.env.draw.1 &&& kk)).setEnv s.env.draw.2).advance

end Sys2Proof.Machine
end

