-- ==== Sys2Proof/Machine/Control.lean ====
section
/-! DEFINITION. Control flow: SYS, RET, JP, CALL, JP V0, the four register skips, and `Unknown` words (spec/41_control_flow.md R123 to
R131; spec/60_exceptions.md R246).  P is `s.pc`. -/

namespace Sys2Proof.Machine

/-- `SYS addr` (R123). -/
def execSys (nnn : Addr12) (s : State) : Result :=
  match s.cfg.sysPolicy with
  | .nop => .next s.advance
  | .halt => raise .sysUnsupported (some (encode (.sys nnn))) (some nnn.toNat) s

/-- `RET` (R124). -/
def execRet (s : State) : Result :=
  match s.pop with
  | some (target, t) => .next (t.setPc target)
  | none => raise .stackUnderflow (some (encode .ret)) none s

/-- `JP addr` (R125). -/
def execJp (nnn : Addr12) (s : State) : Result := .next (s.setPc (zext16 nnn))

/-- `CALL addr` (R126). -/
def execCall (nnn : Addr12) (s : State) : Result :=
  match s.push (s.pc + 2) with
  | some t => .next (t.setPc (zext16 nnn))
  | none => raise .stackOverflow (some (encode (.call nnn))) none s

/-- `JP V0, addr` (R127): the sum is exact, at most 0x10FE. -/
def execJpV0 (nnn : Addr12) (s : State) : Result :=
  .next (s.setPc (BitVec.ofNat 16 (nnn.toNat + (s.reg 0).toNat)))

/-- `SE Vx, byte` (R128). -/
def execSeImm (x : Nibble) (kk : Byte) (s : State) : Result := .next (s.skipIf (s.reg x == kk))

/-- `SNE Vx, byte` (R129). -/
def execSneImm (x : Nibble) (kk : Byte) (s : State) : Result := .next (s.skipIf (s.reg x != kk))

/-- `SE Vx, Vy` (R130). -/
def execSeReg (x y : Nibble) (s : State) : Result := .next (s.skipIf (s.reg x == s.reg y))

/-- `SNE Vx, Vy` (R131). -/
def execSneReg (x y : Nibble) (s : State) : Result := .next (s.skipIf (s.reg x != s.reg y))

/-- An `Unknown(op)` word (R246). -/
def execUnknown (op : Word) (s : State) : Result :=
  match s.cfg.unknownWordPolicy with
  | .halt => raise .unknownOpcode (some op) none s
  | .skip => .next s.advance

end Sys2Proof.Machine
end

