-- ==== Sys2Proof/Machine/Display.lean ====
section
/-! DEFINITION. The display: CLS, DRW and the sprite XOR compositor (spec/44_display.md R200 to R202). -/

namespace Sys2Proof.Machine

/-- DISP[x][y] (spec/10_state.md R28). -/
def Display.cell (d : Display) (x : Fin 64) (y : Fin 32) : Bool := (d[y.val]'y.isLt)[x.val]'x.isLt

/-- DISP[x][y] <- DISP[x][y] XOR 1. -/
def Display.toggle (d : Display) (x : Fin 64) (y : Fin 32) : Display :=
  d.set y.val ((d[y.val]'y.isLt).set x.val (!Display.cell d x y) x.isLt) y.isLt

/-- All cells off (R200). -/
def Display.clear : Display := Vector.replicate 32 (Vector.replicate 64 false)

/-- Pixel c of a sprite row, 0 leftmost: bit 7 - c of its byte (R201). -/
def spritePixel (b : Byte) (c : Nat) : Bool := b.getLsbD (7 - c)

/-- The cells the 1 bits of one sprite row name: its byte b, the column x0 and the row y of its leftmost pixel, columns wrapping
mod 64 and rows mod 32 (R202). -/
def rowCells (x0 y : Nat) (b : Byte) : List (Fin 64 × Fin 32) :=
  ((List.range 8).filter (spritePixel b)).map fun c => (Fin.ofNat 64 (x0 + c), Fin.ofNat 32 y)

/-- The cells the 1 bits of a sprite name, row r at y0 + r (R201, R202). -/
def spriteCells (x0 : Nat) : Nat → List Byte → List (Fin 64 × Fin 32)
  | _, [] => []
  | y, b :: rest => rowCells x0 y b ++ spriteCells x0 (y + 1) rest

/-- Cells are visited in order: `hit` becomes true where one is on, and each is toggled (R202). -/
def composite : List (Fin 64 × Fin 32) → Display × Bool → Display × Bool
  | [], p => p
  | (x, y) :: rest, (d, hit) => composite rest (Display.toggle d x y, hit || Display.cell d x y)

/-- The display and the collision flag after the N-row sprite at I is drawn at (V[X] mod 64, V[Y] mod 32) (R202). -/
def State.drawn (s : State) (x y n : Nibble) : Display × Bool :=
  composite
    (spriteCells ((s.reg x).toNat % 64) ((s.reg y).toNat % 32) (s.readBytes s.base n.toNat))
    (s.disp, false)

/-- `CLS` (R200). -/
def execCls (s : State) : Result := .next (s.setDisp Display.clear).advance

/-- `DRW Vx, Vy, nibble` (R202). -/
def execDrw (x y n : Nibble) (s : State) : Result :=
  guarded (.drw x y n) false s.base n.toNat s
    ((s.setDisp (s.drawn x y n).1).setReg vF (flagByte (s.drawn x y n).2)).advance

end Sys2Proof.Machine
end

