-- ==== Sys2Proof/Machine/Index.lean ====
section
/-! DEFINITION. The index register and the memory transfers (spec/43_index_memory.md R181 to R186). -/

namespace Sys2Proof.Machine

/-- `LD I, addr` (R181). -/
def execLdI (nnn : Addr12) (s : State) : Result := .next (s.setI (zext16 nnn)).advance

/-- `ADD I, Vx` (R182): VF is not written, and a result above 0xFFF is kept. -/
def execAddI (x : Nibble) (s : State) : Result := .next (s.setI (s.indexPlus (s.reg x).toNat)).advance

/-- `LD F, Vx` (R183): it writes I, although spec/10_state.md R25 leaves it out of the writers of I.  DEDUCED, safe: the
instruction's own rule is followed (notes/assumptions/10.md). -/
def execLdF (x : Nibble) (s : State) : Result :=
  .next (s.setI (glyphAddress s.cfg (lowNibble (s.reg x)))).advance

/-- `LD B, Vx` (R184): the three digits at I, I + 1 and I + 2; I is unchanged. -/
def execLdB (x : Nibble) (s : State) : Result :=
  guarded (.ldB x) true s.base 3 s (s.writeBytes s.base (bcdDigits (s.reg x))).advance

/-- `LD [I], Vx` (R185): V0 to VX to memory, then I <- (I + X + 1) mod 2^16. -/
def execLdMemVx (x : Nibble) (s : State) : Result :=
  guarded (.ldMemVx x) true s.base (blockCount x) s
    ((s.writeBytes s.base (s.blockRegs x)).setI (s.indexPlus (blockCount x))).advance

/-- The registers after V0 to VX are loaded from I on: V[k] <- MemRead(I + k) for k up to X (R186). -/
def State.loadedRegs (s : State) (x : Nibble) : Vector Byte 16 :=
  s.v.mapIdx fun k old => if k < blockCount x then s.readByte (s.base + k) else old

/-- `LD Vx, [I]` (R186): V0 to VX from memory, then I <- (I + X + 1) mod 2^16. -/
def execLdVxMem (x : Nibble) (s : State) : Result :=
  guarded (.ldVxMem x) false s.base (blockCount x) s
    ((s.setRegs (s.loadedRegs x)).setI (s.indexPlus (blockCount x))).advance

end Sys2Proof.Machine
end

