-- ==== Sys2Proof/Machine/KeypadTimers.lean ====
section
/-! DEFINITION. Keypad and timer access (spec/45_keypad_timers.md R220 to R225). -/

namespace Sys2Proof.Machine

/-- The least held key, if any is held (R222). -/
def State.leastHeldKey (s : State) : Option Nat := s.key.toList.findIdx? id

/-- `SKP Vx` (R220). -/
def execSkp (x : Nibble) (s : State) : Result := .next (s.skipIf (s.keyHeld (lowNibble (s.reg x))))

/-- `SKNP Vx` (R221). -/
def execSknp (x : Nibble) (s : State) : Result := .next (s.skipIf (!s.keyHeld (lowNibble (s.reg x))))

/-- `LD Vx, K` (R222): while no key is held nothing changes, PC included, and the next Cycle runs the same word again. -/
def execLdVxK (x : Nibble) (s : State) : Result :=
  match s.leastHeldKey with
  | some k => .next (s.setReg x (BitVec.ofNat 8 k)).advance
  | none => .next s

/-- `LD Vx, DT` (R223). -/
def execLdVxDt (x : Nibble) (s : State) : Result := .next (s.setReg x s.dt).advance

/-- `LD DT, Vx` (R224). -/
def execLdDtVx (x : Nibble) (s : State) : Result := .next (s.setDt (s.reg x)).advance

/-- `LD ST, Vx` (R225). -/
def execLdStVx (x : Nibble) (s : State) : Result := .next (s.setSt (s.reg x)).advance

end Sys2Proof.Machine
end

