-- ==== Sys2Proof/Machine/Fetch.lean ====
section
/-! DEFINITION. Instruction fetch (spec/20_memory.md R63, R66, R67), and placing a word where the next fetch reads it. -/

namespace Sys2Proof.Machine

/-- What a fetch answers: the word, or the first address of its two reads that is out of range (R66). -/
inductive Fetched where
  | word (op : Word)
  | outOfRange (a : Nat)
  deriving DecidableEq, Repr

/-- The fetch of a Cycle: two bytes at P and P + 1, big-endian, after the range check of R66.  An odd P is fetched like any other
(R67). -/
def State.fetch (s : State) : Fetched :=
  if 0xFFE < s.pc.toNat then .outOfRange (if 0xFFF < s.pc.toNat then s.pc.toNat else s.pc.toNat + 1)
  else .word (wordOfBytes (s.readByte s.pc.toNat) (s.readByte (s.pc.toNat + 1)))

/-- The machine ready for a Cycle at a fetchable P: no fault latched, no other host operation queued, and a PC above 0xFFE, from which
no word can be fetched, back at 0x200. -/
def State.readyToFetch (s : State) : State :=
  { s with
    pc := if 0xFFE < s.pc.toNat then 0x200 else s.pc
    fault := none
    env := { s.env with ops := [] } }

/-- The word stored at P and P + 1, high byte first (R63). -/
def State.placeWord (s : State) (op : Word) : State :=
  s.writeBytes s.pc.toNat [hiByte op, loByte op]

end Sys2Proof.Machine
end

