-- ==== Sys2Proof/Machine/HostOps.lean ====
section
/-! DEFINITION. The host's operations other than CYCLE, and the outputs (spec/10_state.md R34, R35; spec/60_exceptions.md R260, R263;
spec/70_reset_and_hazards.md R280, R283, R292). -/

namespace Sys2Proof.Machine

/-- A timer after one Tick: decremented, clamped at 0 (R260). -/
def countDown (b : Byte) : Byte := if 0 < b.toNat then b - 1 else b

/-- TICK (R260).  It runs whether or not FAULT is set (R263). -/
def State.tick (s : State) : State := (s.setDt (countDown s.dt)).setSt (countDown s.st)

/-- The state after the Loader copies an image to 0x200 on (R283). -/
def State.loadImage (s : State) (image : List Byte) : State := s.writeBytes progBase image

/-- LOAD(image) (R283): an image longer than 3584 bytes changes no component and returns CapacityExceeded.  A successful LOAD is the
boot sequence's one LOAD (R290). -/
def State.load (s : State) (image : List Byte) : State :=
  if maxImage < image.length then s.setEnv { s.env with loadReply := some .capacityExceeded }
  else (s.loadImage image).setEnv { s.env with loadReply := some .ok, loadOpen := false }

/-- A new construction (R280, R293): every component of R20 at its construction value, under the same configuration (R31).  What the
host has queued stays queued. -/
def State.reconstruct (s : State) : State :=
  State.construct s.cfg { s.env with loadOpen := true, loadReply := none }

/-- Each fault's code (spec/60_exceptions.md R241). -/
def FaultCode.number : FaultCode → Nat
  | .stackOverflow => 1
  | .stackUnderflow => 2
  | .unknownOpcode => 3
  | .addressOutOfRange => 4
  | .protectedWrite => 5
  | .sysUnsupported => 6

/-- The code LOAD returns with its error, CapacityExceeded (R241, R283); none for ok. -/
def LoadReply.number : LoadReply → Option Nat
  | .ok => none
  | .capacityExceeded => some 7

/-- DISP_OUT (R35): cell (x, y) of the display, as 0 or 1. -/
def State.dispOut (s : State) (x : Fin 64) (y : Fin 32) : Nat := ((s.disp[y.val]'y.isLt)[x.val]'x.isLt).toNat

/-- ST_OUT (R35). -/
def State.stOut (s : State) : Byte := s.st

/-- SOUND_OUT (R35): 1 exactly when ST > 0. -/
def State.soundOut (s : State) : Bool := decide (0 < s.st.toNat)

/-- FAULT_OUT (R242): the latch, which is also what the CYCLE that left it returned (R245). -/
def State.faultOut (s : State) : Option FaultRecord := s.fault

end Sys2Proof.Machine
end

