-- ==== Sys2Proof/Machine/Cycle.lean ====
section
/-! DEFINITION. The Interpreter Cycle (spec/60_exceptions.md R240) and one operation of the host (spec/10_state.md R34, R38). -/

namespace Sys2Proof.Machine

/-- The host's side once a CYCLE has run: LOAD is no longer a move of the boot sequence (spec/70_reset_and_hazards.md R290). -/
def State.closeLoad (s : State) : State := s.setEnv { s.env with loadOpen := false }

/-- Decode and execute one fetched word (R93, R240). -/
def execWord (op : Word) (s : State) : Result :=
  match decode op with
  | .instr i => exec i s
  | .unknown w => execUnknown w s

/-- One CYCLE (R240): with a fault latched nothing changes (R245); else fetch, decode and execute.  The record a CYCLE returns is the
FAULT latch it leaves (R242). -/
def cycle (s : State) : Result :=
  match s.fault with
  | some _ => .next s
  | none =>
    match s.fetch with
    | .outOfRange a => raise .addressOutOfRange none (some a) s.closeLoad
    | .word op => execWord op s.closeLoad

/-- One operation of the host.  LOAD outside the boot sequence is outside the spec (R290) and is refused by name. -/
def hostOp (op : HostOp) (s : State) : Result :=
  match op with
  | .cycle => cycle s
  | .tick => .next s.tick
  | .setKey k b => .next (s.setKey k b)
  | .load image => if s.env.loadOpen then .next (s.load image) else .refused .loadOutsideBoot
  | .construct => .next s.reconstruct

/-- The instruction at PC is a jump to itself (spec/70_reset_and_hazards.md R295 (b)). -/
def State.atSelfJump (s : State) : Bool :=
  match s.fetch with
  | .word op => decode op == .instr (.jp (s.pc.setWidth 12)) && decide (s.pc.toNat ≤ 0xFFF)
  | .outOfRange _ => false

/-- The end of a run, for claims (R295): a fault is latched, or the instruction at PC is a jump to itself. -/
def State.ended (s : State) : Bool := s.fault.isSome || s.atSelfJump

/-- The host's next operation, and the machine with it taken off the queue: CYCLE when nothing is queued. -/
def State.nextOp (s : State) : HostOp × State :=
  match s.env.ops with
  | [] => (.cycle, s)
  | op :: rest => (op, s.setEnv { s.env with ops := rest })

end Sys2Proof.Machine
end

