-- ==== Sys2Proof/Machine/Step.lean ====
section
/-! DEFINITION. One step of the machine: one operation of the host, each atomic (spec/10_state.md R38; spec/20_memory.md R69). -/

namespace Sys2Proof.Machine

/-- One step: the host's next queued operation, or a CYCLE when none is queued. -/
def step (s : State) : Host.Outcome State Fault Refusal := hostOp s.nextOp.1 s.nextOp.2

/-- s with a table word (the low `nbits` bits of w, higher bits 0) stored where the next step fetches, and that step a CYCLE that runs
it. -/
def State.withFetchWord (s : State) (nbits w : Nat) : State :=
  s.readyToFetch.placeWord (BitVec.ofNat 16 (w % 2 ^ nbits))

end Sys2Proof.Machine
end

