-- ==== Sys2Proof/Safety.lean ====
section
/-! DEFINITION. What counts as a safe run, and the terms the claims use: the invariant every step keeps, what an instruction leaves
unchanged, what raising a fault looks like from outside, and which display cells a sprite covers. -/

namespace Sys2Proof.Machine

/-- The invariant: memory is in its one form (every listed address below 4096); PC is at most 0x10FE (spec/10_state.md R24) and every
stack slot at most 0x1000 (spec/41_control_flow.md R121, R126); a latched fault names the frozen PC as its P
(spec/60_exceptions.md R244). -/
structure State.Inv (s : State) : Prop where
  mem_wf : Memory.wf s.cfg s.mem = true
  pc_le : s.pc.toNat ≤ 0x10FE
  stack_le : ∀ j : Fin 16, (s.stack[j.val]'j.isLt).toNat ≤ 0x1000
  fault_p : ∀ r, s.fault = some r → r.p = s.pc

/-! ### What stays unchanged -/

/-- The components of the state, for saying what stays unchanged. -/
inductive Part where
  | mem | v | i | pc | stack | sp | dt | st | disp | key | fault | env
  deriving DecidableEq, Repr

/-- The component is the same in both states.  Memory is the same when every byte reads the same. -/
def Part.Same (p : Part) (s t : State) : Prop :=
  match p with
  | .mem => ∀ a, t.readByte a = s.readByte a
  | .v => ∀ k, t.reg k = s.reg k
  | .i => t.i = s.i
  | .pc => t.pc = s.pc
  | .stack => t.stack = s.stack
  | .sp => t.sp = s.sp
  | .dt => t.dt = s.dt
  | .st => t.st = s.st
  | .disp => t.disp = s.disp
  | .key => t.key = s.key
  | .fault => t.fault = s.fault
  | .env => t.env = s.env

/-- Every component but the named ones is the same, the configuration always (spec/10_state.md R31). -/
def UnchangedExcept (ps : List Part) (s t : State) : Prop :=
  t.cfg = s.cfg ∧ ∀ p, p ∉ ps → p.Same s t

/-- Every register but the named ones is the same. -/
def RegsUnchangedExcept (ks : List Nibble) (s t : State) : Prop :=
  ∀ k, k ∉ ks → t.reg k = s.reg k

/-- Every byte of memory outside the n bytes from `base` on reads as before. -/
def BytesUnchangedOutside (base n : Nat) (s t : State) : Prop :=
  ∀ a, a < base ∨ base + n ≤ a → t.readByte a = s.readByte a

/-- What an address reads once the bytes are stored from `base` on: the stored byte that falls there, or else what it reads in s. -/
def State.byteUnder (s : State) (base : Nat) (bytes : List Byte) (a : Nat) : Byte :=
  if base ≤ a then bytes.getD (a - base) (s.readByte a) else s.readByte a

/-- The answer is that a fault was raised from s with this code, word and address: the FAULT latch holds the record, with P the PC of s,
and every other component is unchanged (spec/60_exceptions.md R241, R244). -/
def Raises (r : Result) (s : State) (code : FaultCode) (op : Option Word) (addr : Option Nat) : Prop :=
  ∃ t, r = .next t ∧ t.fault = some { code := code, p := s.pc, op := op, addr := addr } ∧ UnchangedExcept [.fault] s t

/-- Every component of R20 but FAULT is exactly the same, memory as a list too (R244: "leaves every component of the state exactly as
it was"). -/
def SameComponents (s t : State) : Prop :=
  t.mem = s.mem ∧ t.v = s.v ∧ t.i = s.i ∧ t.pc = s.pc ∧ t.stack = s.stack ∧ t.sp = s.sp ∧ t.dt = s.dt ∧ t.st = s.st ∧
    t.disp = s.disp ∧ t.key = s.key ∧ t.cfg = s.cfg

/-! ### Sprites -/

/-- The N-row sprite at I, drawn at (V[X], V[Y]), has a 1 bit on the cell in column px and row py (spec/44_display.md R201, R202). -/
def SpriteCovers (s : State) (x y n : Nibble) (px : Fin 64) (py : Fin 32) : Prop :=
  ∃ r c : Nat, r < n.toNat ∧ c < 8 ∧ (s.readByte (s.i.toNat + r)).getLsbD (7 - c) = true ∧
    px.val = ((s.reg x).toNat % 64 + c) % 64 ∧ py.val = ((s.reg y).toNat % 32 + r) % 32

/-! ### Sequences of instructions -/

/-- CALLs executed one after another, each from its own address to its own target; `none` when one of them raises a fault
(spec/41_control_flow.md R133). -/
def callsFrom : List (Word × Addr12) → State → Option State
  | [], s => some s
  | (p, nnn) :: rest, s =>
    match exec (.call nnn) (s.setPc p) with
    | .next t => if t.fault = none then callsFrom rest t else none
    | _ => none

/-- RETs executed one after another, with the PC each one leaves; `none` when one of them raises a fault (R133). -/
def returnsFrom : Nat → State → Option (List Word × State)
  | 0, s => some ([], s)
  | k + 1, s =>
    match exec .ret s with
    | .next t => if t.fault = none then (returnsFrom k t).map fun (ps, u) => (t.pc :: ps, u) else none
    | _ => none

/-- k Ticks, one after another (spec/60_exceptions.md R261). -/
def ticks : Nat → State → Result
  | 0, s => .next s
  | k + 1, s =>
    match hostOp .tick s with
    | .next t => ticks k t
    | .fault r => .fault r
    | .refused r => .refused r

/-- s under another UNKNOWN_OPCODE_POLICY. -/
def State.withPolicy (s : State) (u : UnknownPolicy) : State :=
  { s with cfg := { s.cfg with unknownPolicy := some u } }

end Sys2Proof.Machine
end

