-- ==== Sys2Proof/Certificates/Slice0/Obligations.lean ====
section
/-! DEFINITION. The statements for the provers.  Each says what a numbered rule of spec/ says the machine does; OBLIGATIONS.json lists
them with the rules they rest on.  In a statement about an instruction the word is written with the packing functions of the
encoding patterns (30_encoding.md R95), and P is the PC before.  Where a rule rests on a decision of 92_eei_decisions.md (Dn) or on an
inference the spec marks as derived, the docstring or OBLIGATIONS.json says so. -/

open Sys2Proof Sys2Proof.Machine

/-! ### Encoding (30_encoding.md) -/

/-- Decoding the word of a well-formed instruction gives the instruction back, every operand at every value (R93, R95). -/
def Obligations.DecodeOfEncodeIsTheInstruction : Prop :=
  ∀ i : Instr, i.wf = true → decode (encode i) = .instr i

/-- A word that decodes to an instruction is that instruction's word, and the instruction is well formed: no two words share a meaning
and no bit is dropped (R93, R96). -/
def Obligations.EncodeOfDecodeIsTheWord : Prop :=
  ∀ (op : Word) (i : Instr), decode op = .instr i → encode i = op ∧ i.wf = true

/-- Every word that matches a pattern of R95 decodes to the row's instruction, its fields read at the places of R91.  The fields are
written as arithmetic on the word's number, apart from the decoder's own field functions. -/
def Obligations.PatternsDecodeWithTheirFields : Prop :=
  ∀ op : Word,
    let x := BitVec.ofNat 4 (op.toNat / 256 % 16)
    let y := BitVec.ofNat 4 (op.toNat / 16 % 16)
    let n := BitVec.ofNat 4 (op.toNat % 16)
    let kk := BitVec.ofNat 8 (op.toNat % 256)
    let nnn := BitVec.ofNat 12 (op.toNat % 4096)
    let t := op.toNat / 4096
    (t = 0x0 ∧ op ≠ 0x00E0 ∧ op ≠ 0x00EE → decode op = .instr (.sys nnn)) ∧
    (op = 0x00E0 → decode op = .instr .cls) ∧
    (op = 0x00EE → decode op = .instr .ret) ∧
    (t = 0x1 → decode op = .instr (.jp nnn)) ∧
    (t = 0x2 → decode op = .instr (.call nnn)) ∧
    (t = 0x3 → decode op = .instr (.seImm x kk)) ∧
    (t = 0x4 → decode op = .instr (.sneImm x kk)) ∧
    (t = 0x5 ∧ n = 0x0 → decode op = .instr (.seReg x y)) ∧
    (t = 0x6 → decode op = .instr (.ldImm x kk)) ∧
    (t = 0x7 → decode op = .instr (.addImm x kk)) ∧
    (t = 0x8 ∧ n = 0x0 → decode op = .instr (.ldReg x y)) ∧
    (t = 0x8 ∧ n = 0x1 → decode op = .instr (.orReg x y)) ∧
    (t = 0x8 ∧ n = 0x2 → decode op = .instr (.andReg x y)) ∧
    (t = 0x8 ∧ n = 0x3 → decode op = .instr (.xorReg x y)) ∧
    (t = 0x8 ∧ n = 0x4 → decode op = .instr (.addReg x y)) ∧
    (t = 0x8 ∧ n = 0x5 → decode op = .instr (.sub x y)) ∧
    (t = 0x8 ∧ n = 0x6 → decode op = .instr (.shr x y)) ∧
    (t = 0x8 ∧ n = 0x7 → decode op = .instr (.subn x y)) ∧
    (t = 0x8 ∧ n = 0xE → decode op = .instr (.shl x y)) ∧
    (t = 0x9 ∧ n = 0x0 → decode op = .instr (.sneReg x y)) ∧
    (t = 0xA → decode op = .instr (.ldI nnn)) ∧
    (t = 0xB → decode op = .instr (.jpV0 nnn)) ∧
    (t = 0xC → decode op = .instr (.rnd x kk)) ∧
    (t = 0xD → decode op = .instr (.drw x y n)) ∧
    (t = 0xE ∧ kk = 0x9E → decode op = .instr (.skp x)) ∧
    (t = 0xE ∧ kk = 0xA1 → decode op = .instr (.sknp x)) ∧
    (t = 0xF ∧ kk = 0x07 → decode op = .instr (.ldVxDt x)) ∧
    (t = 0xF ∧ kk = 0x0A → decode op = .instr (.ldVxK x)) ∧
    (t = 0xF ∧ kk = 0x15 → decode op = .instr (.ldDtVx x)) ∧
    (t = 0xF ∧ kk = 0x18 → decode op = .instr (.ldStVx x)) ∧
    (t = 0xF ∧ kk = 0x1E → decode op = .instr (.addI x)) ∧
    (t = 0xF ∧ kk = 0x29 → decode op = .instr (.ldF x)) ∧
    (t = 0xF ∧ kk = 0x33 → decode op = .instr (.ldB x)) ∧
    (t = 0xF ∧ kk = 0x55 → decode op = .instr (.ldMemVx x)) ∧
    (t = 0xF ∧ kk = 0x65 → decode op = .instr (.ldVxMem x))

/-- The rows of the opcode table are disjoint and, together with `Unknown`, cover all 65536 words: a word matches exactly one row, the row
of the instruction it decodes to, or no row, and then it is `Unknown` (R96).  Row 1 matches 0x0000 to 0x0FFF except 0x00E0 and
0x00EE, which rows 2 and 3 match. -/
def Obligations.TableRowsAreDisjointAndCover : Prop :=
  (∀ op : Word,
    (∃ i r, decode op = .instr i ∧ matchingRows op = [r] ∧ r.row = i.row) ∨
      (decode op = .unknown op ∧ matchingRows op = [])) ∧
  (∀ op : Word, (∃ r, matchingRows op = [r] ∧ r.row = 1) ↔ op.toNat ≤ 0x0FFF ∧ op ≠ 0x00E0 ∧ op ≠ 0x00EE) ∧
  (∀ op : Word, (∃ r, matchingRows op = [r] ∧ r.row = 2) ↔ op = 0x00E0) ∧
  (∀ op : Word, (∃ r, matchingRows op = [r] ∧ r.row = 3) ↔ op = 0x00EE)

/-- The words that decode to `Unknown` are exactly the five groups R97 lists (their number, 17488, is not claimed here). -/
def Obligations.UnknownWordsAreTheListedOnes : Prop :=
  ∀ op w : Word, decode op = .unknown w ↔ w = op ∧
    ((op.toNat / 4096 = 0x5 ∧ op.toNat % 16 ≠ 0) ∨
      (op.toNat / 4096 = 0x9 ∧ op.toNat % 16 ≠ 0) ∨
      (op.toNat / 4096 = 0x8 ∧ op.toNat % 16 ∈ [0x8, 0x9, 0xA, 0xB, 0xC, 0xD, 0xF]) ∨
      (op.toNat / 4096 = 0xE ∧ op.toNat % 256 ∉ [0x9E, 0xA1]) ∨
      (op.toNat / 4096 = 0xF ∧ op.toNat % 256 ∉ [0x07, 0x0A, 0x15, 0x18, 0x1E, 0x29, 0x33, 0x55, 0x65]))

/-- A word of each of seven families, written out from the patterns of R95, decodes to the instruction it stands for, and 0x8128 decodes to
`Unknown` (R93). -/
def Obligations.WrittenOutWordsDecode : Prop :=
  decodeBytes 0x13 0x00 = .instr (.jp 0x300) ∧ decodeBytes 0x33 0x10 = .instr (.seImm 0x3 0x10) ∧
    decodeBytes 0x81 0x25 = .instr (.sub 0x1 0x2) ∧ decodeBytes 0xA2 0xF0 = .instr (.ldI 0x2F0) ∧ decodeBytes 0xD1 0x25 = .instr (.drw 0x1 0x2 0x5) ∧
    decodeBytes 0xE4 0xA1 = .instr (.sknp 0x4) ∧ decodeBytes 0xF3 0x33 = .instr (.ldB 0x3) ∧
    decodeBytes 0x81 0x28 = .unknown 0x8128

/-! ### The Cycle and the step (20_memory.md, 60_exceptions.md) -/

/-- A step at a running machine, with CYCLE queued or nothing queued, runs the instruction the two bytes at PC decode to: it is `exec` of
that instruction at that state, with the CYCLE taken off the queue and LOAD closed (R63, R240; an odd PC too, R67).  That an empty
queue means CYCLE is the model's choice (notes/assumptions/4.md), and so is the record that a CYCLE closes LOAD, `loadOpen`
(notes/assumptions/7.md). -/
def Obligations.StepRunsTheDecodedInstruction : Prop :=
  ∀ (s : State) (i : Instr), s.fault = none → s.pc.toNat ≤ 0xFFE →
    decodeBytes (s.readByte s.pc.toNat) (s.readByte (s.pc.toNat + 1)) = .instr i →
    (s.env.ops = [] → step s = exec i (s.setEnv { s.env with loadOpen := false })) ∧
    (∀ rest, s.env.ops = .cycle :: rest → step s = exec i (s.setEnv { s.env with ops := rest, loadOpen := false }))

/-- The host's operations are serial and each is one step (10_state.md R38): a step performs the operation at the head of the host's queue
and leaves the rest queued.  The queue is the model's form of the host's choice of order, and a CYCLE where it is empty is the model's
choice (notes/assumptions/4.md). -/
def Obligations.StepPerformsTheQueuedOperation : Prop :=
  ∀ s : State, (s.env.ops = [] → step s = hostOp .cycle s) ∧
    (∀ op rest, s.env.ops = op :: rest → step s = hostOp op (s.setEnv { s.env with ops := rest }))

/-- A Cycle whose PC is above 0xFFE raises AddressOutOfRange before decode, whatever memory holds: the address is P when P > 0xFFF and
P + 1 when P = 0xFFF; the record has no word; PC keeps the value P and no other component changes (R66).  The host's side changes in
`loadOpen` alone, the model's record that a CYCLE closes LOAD (notes/assumptions/7.md). -/
def Obligations.FetchAboveTheTopFaults : Prop :=
  ∀ s : State, s.fault = none → 0xFFE < s.pc.toNat →
    Raises (cycle s) (s.setEnv { s.env with loadOpen := false }) .addressOutOfRange none
      (some (if s.pc.toNat = 0xFFF then 0x1000 else s.pc.toNat))

/-- A running machine executes an `Unknown` word by UNKNOWN_OPCODE_POLICY (R246): HALT raises UnknownOpcode(P, op), and SKIP does
PC <- P + 2 and changes no other component.  Where no policy is given (D16: open) it does one of the two, by a free value: the
model's choice (notes/assumptions/2.md).  The host's side changes in `loadOpen` alone, the model's record that a CYCLE closes LOAD
(notes/assumptions/7.md). -/
def Obligations.UnknownWordFollowsThePolicy : Prop :=
  ∀ (s : State) (op : Word), s.fault = none → s.pc.toNat ≤ 0xFFE →
    decodeBytes (s.readByte s.pc.toNat) (s.readByte (s.pc.toNat + 1)) = .unknown op →
    (s.cfg.unknownPolicy = some .halt →
      Raises (cycle s) (s.setEnv { s.env with loadOpen := false }) .unknownOpcode (some op) none) ∧
    (s.cfg.unknownPolicy = some .skip →
      ∃ t, cycle s = .next t ∧ t.pc = s.pc + 2 ∧
        UnchangedExcept [.pc] (s.setEnv { s.env with loadOpen := false }) t) ∧
    (s.cfg.unknownPolicy = none →
      Raises (cycle s) (s.setEnv { s.env with loadOpen := false }) .unknownOpcode (some op) none ∨
        ∃ t, cycle s = .next t ∧ t.pc = s.pc + 2 ∧
          UnchangedExcept [.pc] (s.setEnv { s.env with loadOpen := false }) t)

/-- A run of any number of steps under HALT that holds no construction and ends with no fault recorded is, step for step, a run under
SKIP (R246: such a run never executes an `Unknown` word). -/
def Obligations.HaltRunWithoutFaultIsASkipRun : Prop :=
  ∀ (k : Nat) (s t : State), s.cfg.unknownPolicy = some .halt → HostOp.construct ∉ s.env.ops →
    core.run k s = .next t → t.fault = none → core.run k (s.withPolicy .skip) = .next (t.withPolicy .skip)

/-- A fault is sticky (R245; D20, and D28 for TICK).  While it is latched a CYCLE changes nothing and the record stays; TICK still counts down and SETKEY still
writes KEY, and the record stays; the outputs still show the display, ST and the record; and an operation of the host after which the
record is gone is a construction. -/
def Obligations.LatchedFaultIsSticky : Prop :=
  ∀ (s : State) (r : FaultRecord), s.fault = some r →
    cycle s = .next s ∧
    (hostOp .tick s = .next s.tick ∧ s.tick.dt.toNat = s.dt.toNat - 1 ∧ s.tick.st.toNat = s.st.toNat - 1 ∧
      s.tick.fault = some r) ∧
    (∀ k b, hostOp (.setKey k b) s = .next (s.setKey k b) ∧ (s.setKey k b).keyHeld k = b ∧ (s.setKey k b).fault = some r) ∧
    (s.faultOut = some r ∧ s.stOut = s.st ∧ (s.soundOut = true ↔ 0 < s.st.toNat) ∧
      ∀ x y, s.dispOut x y = 1 ↔ Display.cell s.disp x y = true) ∧
    (∀ op t, hostOp op s = .next t → t.fault ≠ some r → op = .construct)

/-- A raised fault is precise (R244; D20): a step of a running machine that leaves a fault latched leaves every other component of the state
exactly as it was, and the record names the PC as P, with the fetched word when the fetch is in range and no word when it is not. -/
def Obligations.RaisedFaultIsPrecise : Prop :=
  ∀ (s t : State) (r : FaultRecord), s.fault = none → step s = .next t → t.fault = some r →
    SameComponents s t ∧ r.p = s.pc ∧
      r.op = (if s.pc.toNat ≤ 0xFFE then some (s.readByte s.pc.toNat ++ s.readByte (s.pc.toNat + 1)) else none)

/-- Which instructions can fault (R243): an instruction that leaves a fault it did not find is CALL with StackOverflow, RET with
StackUnderflow, SYS with SysUnsupported, DRW or LD Vx, [I] with AddressOutOfRange, or LD B or LD [I], Vx with AddressOutOfRange or
ProtectedWrite; every other instruction always completes. -/
def Obligations.InstructionsThatCanFault : Prop :=
  ∀ (i : Instr) (s t : State) (r : FaultRecord), s.fault = none → exec i s = .next t → t.fault = some r →
    (∃ nnn, i = .call nnn ∧ r.code = .stackOverflow) ∨
      (i = .ret ∧ r.code = .stackUnderflow) ∨
      (∃ nnn, i = .sys nnn ∧ r.code = .sysUnsupported) ∨
      (∃ x y n, i = .drw x y n ∧ r.code = .addressOutOfRange) ∨
      (∃ x, i = .ldVxMem x ∧ r.code = .addressOutOfRange) ∨
      (∃ x, (i = .ldB x ∨ i = .ldMemVx x) ∧ (r.code = .addressOutOfRange ∨ r.code = .protectedWrite))

/-- A step never stops: it answers a next state, except that it refuses a LOAD outside the boot sequence, and always refuses that
(60_exceptions.md R244 and R245; 70_reset_and_hazards.md R290).  The refusal is the model's form of U19 (notes/assumptions/7.md). -/
def Obligations.StepStopsOnlyAtALateLoad : Prop :=
  ∀ s : State,
    ((∃ t, step s = .next t) ∨
      (step s = .refused .loadOutsideBoot ∧ s.env.loadOpen = false ∧ ∃ image rest, s.env.ops = .load image :: rest)) ∧
    (∀ image rest, s.env.loadOpen = false → s.env.ops = .load image :: rest → step s = .refused .loadOutsideBoot)

/-! ### Invariants of every step -/

/-- Every step keeps the invariant: memory in its one form, PC at most 0x10FE, stack slots at most 0x1000, and a latched fault naming
the PC (10_state.md R24 and R26; 41_control_flow.md R121, R122, R126 and R127; 60_exceptions.md R244).  The memory clause is the
model's list form of MEM (notes/assumptions/11.md, DEDUCED). -/
def Obligations.EveryStepKeepsTheInvariant : Prop :=
  ∀ s t : State, s.Inv → step s = .next t → t.Inv

/-- Construction, and so reset, meets the invariant, under every configuration (70_reset_and_hazards.md R280).  The memory clause is the
model's list form of MEM (notes/assumptions/11.md, DEDUCED). -/
def Obligations.ConstructionMeetsTheInvariant : Prop :=
  State.reset.Inv ∧ ∀ (c : Config) (e : Env), (State.construct c e).Inv

/-- The state after reset, component by component (10_state.md R39; the font bytes are those of R33, by D10 and
D11, and DISP and KEY are by D23). -/
def Obligations.ResetHoldsTheConstructionValues : Prop :=
  let s := State.reset
  (∀ a, s.readByte a = if h : a < 0x50 then Config.defaultFont[a]'h else 0) ∧
    (∀ k, s.reg k = 0) ∧ s.i = 0 ∧ s.pc = 0x200 ∧ (∀ j : Fin 16, s.stack[j.val]'j.isLt = 0) ∧ s.sp = 0 ∧ s.dt = 0 ∧
    s.st = 0 ∧ (∀ x y, Display.cell s.disp x y = false) ∧ (∀ k, s.keyHeld k = false) ∧ s.fault = none

/-- No step writes the configuration (10_state.md R31). -/
def Obligations.NoStepWritesTheConfiguration : Prop :=
  ∀ s t : State, step s = .next t → t.cfg = s.cfg

/-- With PROTECT_LOW_MEMORY, a machine whose bytes below 0x200 are the font and zero keeps them so through every step: no instruction
and no LOAD writes there (20_memory.md R65). -/
def Obligations.LowMemoryKeepsItsConstructionBytes : Prop :=
  ∀ s t : State, s.cfg.protectLowMemory = true → (∀ a, a < 0x200 → s.readByte a = unlisted s.cfg a) →
    step s = .next t → ∀ a, a < 0x200 → t.readByte a = unlisted s.cfg a

/-- Each component has its writers among the instructions (10_state.md R25 to R29, R31 and R36; 20_memory.md R60): what an instruction
outside the list executes leaves the component as it was.  R25's list of the writers of I leaves out LD F, whose own rule
(43_index_memory.md R183) writes I: the model follows R183 (notes/assumptions/10.md, DEDUCED). -/
def Obligations.EachComponentHasItsWriters : Prop :=
  ∀ (i : Instr) (s t : State), exec i s = .next t →
    t.cfg = s.cfg ∧ t.key = s.key ∧
    (t.disp = s.disp ∨ i = .cls ∨ ∃ x y n, i = .drw x y n) ∧
    (t.stack = s.stack ∨ ∃ nnn, i = .call nnn) ∧
    (t.sp = s.sp ∨ i = .ret ∨ ∃ nnn, i = .call nnn) ∧
    (t.dt = s.dt ∨ ∃ x, i = .ldDtVx x) ∧
    (t.st = s.st ∨ ∃ x, i = .ldStVx x) ∧
    (t.i = s.i ∨ (∃ nnn, i = .ldI nnn) ∨ ∃ x, i = .addI x ∨ i = .ldF x ∨ i = .ldMemVx x ∨ i = .ldVxMem x) ∧
    (t.mem = s.mem ∨ ∃ x, i = .ldB x ∨ i = .ldMemVx x) ∧
    (t.env = s.env ∨ ∃ x kk, i = .rnd x kk)

/-- No instruction reads ST (10_state.md R27): run from two states that differ only in ST, an instruction gives two states that differ
at most in ST: `LD ST, Vx` leaves the same ST in both, and every other instruction leaves each its own. -/
def Obligations.SoundTimerIsNeverRead : Prop :=
  ∀ (i : Instr) (s t : State) (b : Byte), exec i s = .next t →
    ∃ b', exec i (s.setSt b) = .next (t.setSt b') ∧
      ((∃ x, i = .ldStVx x) → b' = t.st) ∧ ((∀ x, i ≠ .ldStVx x) → b' = b)

/-- No instruction reads a stack slot at or above SP (10_state.md R26 and R40): run from two states whose stacks agree below SP and which
agree in everything else, an instruction gives two states of the same kind. -/
def Obligations.SlotsAboveTheTopAreNeverRead : Prop :=
  ∀ (i : Instr) (s t : State) (stack : Vector Word 16),
    (∀ j : Fin 16, j.val < s.sp.val → stack[j.val]'j.isLt = s.stack[j.val]'j.isLt) → exec i s = .next t →
    ∃ stack' : Vector Word 16, exec i { s with stack := stack } = .next { t with stack := stack' } ∧
      ∀ j : Fin 16, j.val < t.sp.val → stack'[j.val]'j.isLt = t.stack[j.val]'j.isLt

/-! ### Control flow (41_control_flow.md) -/

/-- `SYS addr` (R123; D15), word 0aaa: under NOP it only advances PC; under HALT it raises SysUnsupported(P, NNN). -/
def Obligations.SysFollowsItsPolicy : Prop :=
  ∀ (nnn : Addr12) (s : State),
    (nnn ≠ 0x0E0 → nnn ≠ 0x0EE → decode (packNNN 0x0 nnn) = .instr (.sys nnn)) ∧
    (s.cfg.sysPolicy = .nop → ∃ t, exec (.sys nnn) s = .next t ∧ t.pc = s.pc + 2 ∧ UnchangedExcept [.pc] s t) ∧
    (s.cfg.sysPolicy = .halt → Raises (exec (.sys nnn) s) s .sysUnsupported (some (packNNN 0x0 nnn)) (some nnn.toNat))

/-- `JP addr` (R125), word 1aaa, and `JP V0, addr` (R127), word Baaa: only PC changes, to the address, or to the exact sum of the address
and V0 (D8), whatever its parity and even above 0xFFE. -/
def Obligations.JumpsSetOnlyThePc : Prop :=
  ∀ (nnn : Addr12) (s : State),
    decode (packNNN 0x1 nnn) = .instr (.jp nnn) ∧
    decode (packNNN 0xB nnn) = .instr (.jpV0 nnn) ∧
    (∃ t, exec (.jp nnn) s = .next t ∧ t.pc.toNat = nnn.toNat ∧ UnchangedExcept [.pc] s t) ∧
    (∃ t, exec (.jpV0 nnn) s = .next t ∧ t.pc.toNat = nnn.toNat + (s.reg 0).toNat ∧ UnchangedExcept [.pc] s t)

/-- `CALL addr` (R126), word 2aaa: with SP below 16 it stores P + 2 in STACK[SP], adds 1 to SP and sets PC to the address; with SP = 16 it
raises StackOverflow(P). -/
def Obligations.CallPushesTheReturnAddress : Prop :=
  ∀ (nnn : Addr12) (s : State),
    decode (packNNN 0x2 nnn) = .instr (.call nnn) ∧
    (s.sp.val < 16 → ∃ t, exec (.call nnn) s = .next t ∧ t.pc.toNat = nnn.toNat ∧ t.sp.val = s.sp.val + 1 ∧
      (∀ j : Fin 16, t.stack[j.val]'j.isLt = if j.val = s.sp.val then s.pc + 2 else s.stack[j.val]'j.isLt) ∧
      UnchangedExcept [.stack, .sp, .pc] s t) ∧
    (s.sp.val = 16 → Raises (exec (.call nnn) s) s .stackOverflow (some (packNNN 0x2 nnn)) none)

/-- `RET` (R124), word 00EE: with SP above 0 it subtracts 1 from SP and sets PC to exactly STACK[SP], which keeps its value; with SP = 0 it
raises StackUnderflow(P). -/
def Obligations.RetTakesTheTopOfTheStack : Prop :=
  ∀ s : State,
    decode 0x00EE = .instr .ret ∧
    (0 < s.sp.val → ∃ t, exec .ret s = .next t ∧ t.sp.val = s.sp.val - 1 ∧
      (∀ j : Fin 16, j.val = t.sp.val → t.pc = s.stack[j.val]'j.isLt) ∧ UnchangedExcept [.sp, .pc] s t) ∧
    (s.sp.val = 0 → Raises (exec .ret s) s .stackUnderflow (some 0x00EE) none)

/-- Nesting (R133): from SP = 0, sixteen CALLs made from any addresses to any targets succeed and leave SP = 16 with the sixteen return
addresses in call order; sixteen RETs then set PC to those addresses in reverse order; and a seventeenth CALL before any RET raises
StackOverflow. -/
def Obligations.SixteenNestedCallsReturnInReverse : Prop :=
  ∀ (s : State) (calls : List (Word × Addr12)), s.fault = none → s.sp = 0 → calls.length = 16 →
    ∃ t, callsFrom calls s = some t ∧ t.sp.val = 16 ∧ t.stack.toList = calls.map (fun c => c.1 + 2) ∧
      (∃ u, returnsFrom 16 t = some ((calls.map (fun c => c.1 + 2)).reverse, u) ∧ u.sp = 0) ∧
      (∀ nnn, Raises (exec (.call nnn) t) t .stackOverflow (some (packNNN 0x2 nnn)) none)

/-- The four register skips (R128 to R131), words 3xkk, 4xkk, 5xy0 and 9xy0: PC <- P + 4 when the condition holds and P + 2 when it does
not, and nothing else changes. -/
def Obligations.SkipsTestRegisters : Prop :=
  ∀ (x y : Nibble) (kk : Byte) (s : State),
    decode (packXKK 0x3 x kk) = .instr (.seImm x kk) ∧ decode (packXKK 0x4 x kk) = .instr (.sneImm x kk) ∧
    decode (packXYN 0x5 x y 0x0) = .instr (.seReg x y) ∧ decode (packXYN 0x9 x y 0x0) = .instr (.sneReg x y) ∧
    (∃ t, exec (.seImm x kk) s = .next t ∧ t.pc = (if s.reg x = kk then s.pc + 4 else s.pc + 2) ∧
      UnchangedExcept [.pc] s t) ∧
    (∃ t, exec (.sneImm x kk) s = .next t ∧ t.pc = (if s.reg x ≠ kk then s.pc + 4 else s.pc + 2) ∧
      UnchangedExcept [.pc] s t) ∧
    (∃ t, exec (.seReg x y) s = .next t ∧ t.pc = (if s.reg x = s.reg y then s.pc + 4 else s.pc + 2) ∧
      UnchangedExcept [.pc] s t) ∧
    (∃ t, exec (.sneReg x y) s = .next t ∧ t.pc = (if s.reg x ≠ s.reg y then s.pc + 4 else s.pc + 2) ∧
      UnchangedExcept [.pc] s t)

/-! ### ALU (42_alu.md) -/

/-- `LD Vx, byte` (R150), word 6xkk, and `LD Vx, Vy` (R152), word 8xy0: VX takes the value, PC <- P + 2, and nothing else changes. -/
def Obligations.LoadsWriteOnlyVx : Prop :=
  ∀ (x y : Nibble) (kk : Byte) (s : State),
    decode (packXKK 0x6 x kk) = .instr (.ldImm x kk) ∧ decode (packXYN 0x8 x y 0x0) = .instr (.ldReg x y) ∧
    (∃ t, exec (.ldImm x kk) s = .next t ∧ t.reg x = kk ∧ t.pc = s.pc + 2 ∧ RegsUnchangedExcept [x] s t ∧
      UnchangedExcept [.v, .pc] s t) ∧
    (∃ t, exec (.ldReg x y) s = .next t ∧ t.reg x = s.reg y ∧ t.pc = s.pc + 2 ∧ RegsUnchangedExcept [x] s t ∧
      UnchangedExcept [.v, .pc] s t)

/-- `ADD Vx, byte` (R151), word 7xkk: VX takes (x + KK) mod 256, and VF is not written as a flag (D4). -/
def Obligations.AddImmediateWritesNoFlag : Prop :=
  ∀ (x : Nibble) (kk : Byte) (s : State),
    decode (packXKK 0x7 x kk) = .instr (.addImm x kk) ∧
    ∃ t, exec (.addImm x kk) s = .next t ∧ (t.reg x).toNat = ((s.reg x).toNat + kk.toNat) % 256 ∧ t.pc = s.pc + 2 ∧
      RegsUnchangedExcept [x] s t ∧ UnchangedExcept [.v, .pc] s t

/-- `OR`, `AND` and `XOR` (R153 to R155; D6), words 8xy1, 8xy2 and 8xy3: VX takes the bitwise result; with LOGIC_VF_RESET VF is then set to
0, which stands when X = F (D3), and without it VF is not written as a flag. -/
def Obligations.LogicOperationsResetVF : Prop :=
  ∀ (x y : Nibble) (s : State) (i : Instr) (f : Byte → Byte → Byte) (sel : Nibble),
    ((i = .orReg x y ∧ f = (fun a b => a ||| b) ∧ sel = 0x1) ∨ (i = .andReg x y ∧ f = (fun a b => a &&& b) ∧ sel = 0x2) ∨
      (i = .xorReg x y ∧ f = (fun a b => a ^^^ b) ∧ sel = 0x3)) →
    decode (packXYN 0x8 x y sel) = .instr i ∧
    ∃ t, exec i s = .next t ∧ t.pc = s.pc + 2 ∧ UnchangedExcept [.v, .pc] s t ∧
      (s.cfg.logicVfReset = true → t.reg vF = 0 ∧ (x ≠ vF → t.reg x = f (s.reg x) (s.reg y)) ∧
        RegsUnchangedExcept [x, vF] s t) ∧
      (s.cfg.logicVfReset = false → t.reg x = f (s.reg x) (s.reg y) ∧ RegsUnchangedExcept [x] s t)

/-- `ADD Vx, Vy` (R156), word 8xy4: VX takes (x + y) mod 256 and then VF takes the carry, which stands when X = F (D3). -/
def Obligations.AddSetsTheCarry : Prop :=
  ∀ (x y : Nibble) (s : State),
    decode (packXYN 0x8 x y 0x4) = .instr (.addReg x y) ∧
    ∃ t, exec (.addReg x y) s = .next t ∧
      t.reg vF = (if (s.reg x).toNat + (s.reg y).toNat > 255 then 1 else 0) ∧
      (x ≠ vF → (t.reg x).toNat = ((s.reg x).toNat + (s.reg y).toNat) % 256) ∧ t.pc = s.pc + 2 ∧
      RegsUnchangedExcept [x, vF] s t ∧ UnchangedExcept [.v, .pc] s t

/-- `SUB Vx, Vy` (R157), word 8xy5, and `SUBN Vx, Vy` (R159), word 8xy7: VX takes the difference mod 256 and then VF takes not-borrow, 1 when
the operands are equal, which stands when X = F (D3). -/
def Obligations.SubtractionsSetNotBorrow : Prop :=
  ∀ (x y : Nibble) (s : State),
    decode (packXYN 0x8 x y 0x5) = .instr (.sub x y) ∧ decode (packXYN 0x8 x y 0x7) = .instr (.subn x y) ∧
    (∃ t, exec (.sub x y) s = .next t ∧ t.reg vF = (if (s.reg x).toNat ≥ (s.reg y).toNat then 1 else 0) ∧
      (x ≠ vF → ((t.reg x).toNat : Int) = ((s.reg x).toNat - (s.reg y).toNat : Int) % 256) ∧ t.pc = s.pc + 2 ∧
      RegsUnchangedExcept [x, vF] s t ∧ UnchangedExcept [.v, .pc] s t) ∧
    (∃ t, exec (.subn x y) s = .next t ∧ t.reg vF = (if (s.reg y).toNat ≥ (s.reg x).toNat then 1 else 0) ∧
      (x ≠ vF → ((t.reg x).toNat : Int) = ((s.reg y).toNat - (s.reg x).toNat : Int) % 256) ∧ t.pc = s.pc + 2 ∧
      RegsUnchangedExcept [x, vF] s t ∧ UnchangedExcept [.v, .pc] s t)

/-- `SHR Vx, Vy` (R158), word 8xy6, and `SHL Vx, Vy` (R160), word 8xyE: src is V[Y] when SHIFT_SOURCE = VY and V[X] when it is VX; VX takes src
shifted by one and then VF takes the bit shifted out, which stands when X = F (D3, D5). -/
def Obligations.ShiftsMoveOneBit : Prop :=
  ∀ (x y : Nibble) (s : State) (src : Byte),
    (s.cfg.shiftSource = .vy ∧ src = s.reg y) ∨ (s.cfg.shiftSource = .vx ∧ src = s.reg x) →
    decode (packXYN 0x8 x y 0x6) = .instr (.shr x y) ∧ decode (packXYN 0x8 x y 0xE) = .instr (.shl x y) ∧
    (∃ t, exec (.shr x y) s = .next t ∧ (t.reg vF).toNat = src.toNat % 2 ∧ (x ≠ vF → (t.reg x).toNat = src.toNat / 2) ∧
      t.pc = s.pc + 2 ∧ RegsUnchangedExcept [x, vF] s t ∧ UnchangedExcept [.v, .pc] s t) ∧
    (∃ t, exec (.shl x y) s = .next t ∧ (t.reg vF).toNat = src.toNat / 128 ∧
      (x ≠ vF → (t.reg x).toNat = src.toNat * 2 % 256) ∧
      t.pc = s.pc + 2 ∧ RegsUnchangedExcept [x, vF] s t ∧ UnchangedExcept [.v, .pc] s t)

/-- `RND Vx, byte` (R161), word Cxkk: VX takes r AND KK for the byte r drawn from RND_IN (10_state.md R36), whatever r the host supplies, and
the draw consumes it.  Where the host has queued none, r is the model's free value, about which nothing is claimed but that the same r
is masked (notes/assumptions/3.md); KK = 0 gives 0. -/
def Obligations.RandomByteIsMasked : Prop :=
  ∀ (x : Nibble) (kk : Byte) (s : State),
    decode (packXKK 0xC x kk) = .instr (.rnd x kk) ∧
    ∃ (t : State) (r : Byte), exec (.rnd x kk) s = .next t ∧ t.reg x = (r &&& kk) ∧ t.pc = s.pc + 2 ∧
      (∀ r₀ rest, s.env.rndIn = r₀ :: rest → r = r₀ ∧ t.env = { s.env with rndIn := rest }) ∧
      (s.env.rndIn = [] → r = Config.rndByte s.env.rndCount ∧ t.env = { s.env with rndCount := s.env.rndCount + 1 }) ∧
      RegsUnchangedExcept [x] s t ∧ UnchangedExcept [.v, .pc, .env] s t

/-! ### Index register and memory transfers (43_index_memory.md) -/

/-- `LD I, addr` (R181), word Aaaa: I takes the address.  `ADD I, Vx` (R182), word Fx1E: I takes (I + x) mod 2^16, with no fault and no flag
(D9). -/
def Obligations.IndexIsSetAndAdded : Prop :=
  ∀ (nnn : Addr12) (x : Nibble) (s : State),
    decode (packNNN 0xA nnn) = .instr (.ldI nnn) ∧ decode (packXKK 0xF x 0x1E) = .instr (.addI x) ∧
    (∃ t, exec (.ldI nnn) s = .next t ∧ t.i.toNat = nnn.toNat ∧ t.pc = s.pc + 2 ∧ UnchangedExcept [.i, .pc] s t) ∧
    (∃ t, exec (.addI x) s = .next t ∧ t.i.toNat = (s.i.toNat + (s.reg x).toNat) % 65536 ∧ t.pc = s.pc + 2 ∧
      UnchangedExcept [.i, .pc] s t)

/-- `LD F, Vx` (R183), word Fx29: I takes FONT_BASE + 5 * (x AND 0xF) (D10). -/
def Obligations.FontAddressUsesTheLowNibble : Prop :=
  ∀ (x : Nibble) (s : State),
    decode (packXKK 0xF x 0x29) = .instr (.ldF x) ∧
    ∃ t, exec (.ldF x) s = .next t ∧ t.i.toNat = s.cfg.fontBase.val + 5 * ((s.reg x).toNat % 16) ∧ t.pc = s.pc + 2 ∧
      UnchangedExcept [.i, .pc] s t

/-- `LD B, Vx` (R184), word Fx33: the decimal digits of VX go to I, I + 1 and I + 2, hundreds first, and I is unchanged.  It faults at the first
failing address, writing nothing: ProtectedWrite(I) when I < 0x200 and PROTECT_LOW_MEMORY, and AddressOutOfRange when I + 2 > 0xFFF. -/
def Obligations.DecimalDigitsAreStored : Prop :=
  ∀ (x : Nibble) (s : State),
    decode (packXKK 0xF x 0x33) = .instr (.ldB x) ∧
    (s.i.toNat + 2 ≤ 0xFFF → (s.cfg.protectLowMemory = true → 0x200 ≤ s.i.toNat) →
      ∃ t, exec (.ldB x) s = .next t ∧ t.pc = s.pc + 2 ∧
        (t.readByte s.i.toNat).toNat = (s.reg x).toNat / 100 ∧
        (t.readByte (s.i.toNat + 1)).toNat = (s.reg x).toNat / 10 % 10 ∧
        (t.readByte (s.i.toNat + 2)).toNat = (s.reg x).toNat % 10 ∧
        BytesUnchangedOutside s.i.toNat 3 s t ∧ UnchangedExcept [.mem, .pc] s t) ∧
    (s.cfg.protectLowMemory = true → s.i.toNat < 0x200 →
      Raises (exec (.ldB x) s) s .protectedWrite (some (packXKK 0xF x 0x33)) (some s.i.toNat)) ∧
    (0xFFF < s.i.toNat + 2 →
      Raises (exec (.ldB x) s) s .addressOutOfRange (some (packXKK 0xF x 0x33)) (some (max s.i.toNat 0x1000)))

/-- `LD [I], Vx` (R185), word Fx55: V0 to VX go to I, I + 1, ..., I + X, and I takes (I + X + 1) mod 2^16 (D7).  It faults at the first failing
address, writing nothing. -/
def Obligations.BlockStoreWritesV0ToVx : Prop :=
  ∀ (x : Nibble) (s : State),
    decode (packXKK 0xF x 0x55) = .instr (.ldMemVx x) ∧
    (s.i.toNat + x.toNat ≤ 0xFFF → (s.cfg.protectLowMemory = true → 0x200 ≤ s.i.toNat) →
      ∃ t, exec (.ldMemVx x) s = .next t ∧ t.pc = s.pc + 2 ∧ t.i.toNat = (s.i.toNat + x.toNat + 1) % 65536 ∧
        (∀ k : Nibble, k.toNat ≤ x.toNat → t.readByte (s.i.toNat + k.toNat) = s.reg k) ∧
        BytesUnchangedOutside s.i.toNat (x.toNat + 1) s t ∧ UnchangedExcept [.mem, .i, .pc] s t) ∧
    (s.cfg.protectLowMemory = true → s.i.toNat < 0x200 →
      Raises (exec (.ldMemVx x) s) s .protectedWrite (some (packXKK 0xF x 0x55)) (some s.i.toNat)) ∧
    (0xFFF < s.i.toNat + x.toNat →
      Raises (exec (.ldMemVx x) s) s .addressOutOfRange (some (packXKK 0xF x 0x55)) (some (max s.i.toNat 0x1000)))

/-- `LD Vx, [I]` (R186), word Fx65: V0 to VX take the bytes at I, I + 1, ..., I + X, and I takes (I + X + 1) mod 2^16 (D7).  It faults at the first
address above 0xFFF, loading nothing; an address below 0x200 is no fault. -/
def Obligations.BlockLoadReadsV0ToVx : Prop :=
  ∀ (x : Nibble) (s : State),
    decode (packXKK 0xF x 0x65) = .instr (.ldVxMem x) ∧
    (s.i.toNat + x.toNat ≤ 0xFFF →
      ∃ t, exec (.ldVxMem x) s = .next t ∧ t.pc = s.pc + 2 ∧ t.i.toNat = (s.i.toNat + x.toNat + 1) % 65536 ∧
        (∀ k : Nibble, t.reg k = if k.toNat ≤ x.toNat then s.readByte (s.i.toNat + k.toNat) else s.reg k) ∧
        UnchangedExcept [.v, .i, .pc] s t) ∧
    (0xFFF < s.i.toNat + x.toNat →
      Raises (exec (.ldVxMem x) s) s .addressOutOfRange (some (packXKK 0xF x 0x65)) (some (max s.i.toNat 0x1000)))

/-- What a block store writes a block load reads back: after `LD [I], Vx` completes, `LD Vx, [I]` at the same I gives V0 to VX their values,
whatever the registers held between (R185, R186; 20_memory.md R70). -/
def Obligations.BlockLoadReadsBackABlockStore : Prop :=
  ∀ (x : Nibble) (s t : State) (v : Vector Byte 16), s.fault = none → exec (.ldMemVx x) s = .next t → t.fault = none →
    ∃ u, exec (.ldVxMem x) ((t.setRegs v).setI s.i) = .next u ∧ u.i = t.i ∧
      ∀ k : Nibble, u.reg k = if k.toNat ≤ x.toNat then s.reg k else v[k.toNat]'k.isLt

/-- Instruction-fetch coherence (20_memory.md R73): after a completed `LD [I], Vx` or `LD B, Vx`, the instructions that store, a fetch at any
P reads the stored bytes where the instruction stored and the old bytes elsewhere, each of its two bytes for itself.  The stored bytes
are V0 to VX (R185) or the three digits of VX (R184), from I on. -/
def Obligations.FetchSeesEarlierStores : Prop :=
  ∀ (i : Instr) (s t : State) (bytes : List Byte), s.fault = none → exec i s = .next t → t.fault = none →
    ((∃ x, i = .ldMemVx x ∧ bytes.length = x.toNat + 1 ∧
        ∀ (k : Nibble) (h : k.toNat < bytes.length), bytes[k.toNat]'h = s.reg k) ∨
      (∃ x, i = .ldB x ∧
        bytes.map BitVec.toNat = [(s.reg x).toNat / 100, (s.reg x).toNat / 10 % 10, (s.reg x).toNat % 10])) →
    ∀ p : Word, p.toNat ≤ 0xFFE →
      (t.setPc p).fetch = .word (s.byteUnder s.i.toNat bytes p.toNat ++ s.byteUnder s.i.toNat bytes (p.toNat + 1))

/-! ### Display (44_display.md) -/

/-- `CLS` (R200), word 00E0: every cell goes off and PC <- P + 2; nothing else changes. -/
def Obligations.ClearTurnsEveryCellOff : Prop :=
  ∀ s : State, decode 0x00E0 = .instr .cls ∧
    ∃ t, exec .cls s = .next t ∧ (∀ px py, Display.cell t.disp px py = false) ∧ t.pc = s.pc + 2 ∧
      UnchangedExcept [.disp, .pc] s t

/-- `DRW Vx, Vy, nibble` (R202), word Dxyn: a cell under a 1 bit of the sprite is toggled and every other cell is left alone; VF takes 1 if a cell
went from on to off and 0 if none did, whatever X and Y are.  It faults at the first sprite address above 0xFFF, drawing nothing (D12; D17 for the fault). -/
def Obligations.DrawTogglesTheCoveredCells : Prop :=
  ∀ (x y n : Nibble) (s : State),
    decode (packXYN 0xD x y n) = .instr (.drw x y n) ∧
    ((∀ r, r < n.toNat → s.i.toNat + r ≤ 0xFFF) →
      ∃ t, exec (.drw x y n) s = .next t ∧ t.pc = s.pc + 2 ∧
        (∀ px py, (SpriteCovers s x y n px py → Display.cell t.disp px py = !Display.cell s.disp px py) ∧
          (¬SpriteCovers s x y n px py → Display.cell t.disp px py = Display.cell s.disp px py)) ∧
        ((∃ px py, Display.cell s.disp px py = true ∧ Display.cell t.disp px py = false) → t.reg vF = 1) ∧
        ((∀ px py, Display.cell s.disp px py = true → Display.cell t.disp px py = true) → t.reg vF = 0) ∧
        RegsUnchangedExcept [vF] s t ∧ UnchangedExcept [.disp, .v, .pc] s t) ∧
    ((∃ r, r < n.toNat ∧ 0xFFF < s.i.toNat + r) →
      Raises (exec (.drw x y n) s) s .addressOutOfRange (some (packXYN 0xD x y n)) (some (max s.i.toNat 0x1000)))

/-- The composition laws (R204).  t is s after a completed draw, and u is after the same draw again at the same place: with the registers s
had, since the first draw wrote VF.  DISP is restored, and the second draw sets VF = 1 exactly when a cell under a 1 bit was off at
first.  On a clear display the first draw sets VF = 0 and leaves on exactly the cells under the 1 bits, and the second sets VF = 1
exactly when the sprite has a 1 bit (R204's second law, which R202 gives only there: notes/assumptions/9.md).  And an instruction that
turns a cell on is DRW, and one that turns a cell off is CLS or DRW. -/
def Obligations.DrawingTwiceRestoresTheDisplay : Prop :=
  (∀ (x y n : Nibble) (s t : State), s.fault = none → exec (.drw x y n) s = .next t → t.fault = none →
    ∃ u, exec (.drw x y n) (t.setRegs s.v) = .next u ∧ u.fault = none ∧ u.disp = s.disp ∧
      (u.reg vF = 1 ↔ ∃ px py, SpriteCovers s x y n px py ∧ Display.cell s.disp px py = false) ∧
      ((∀ px py, Display.cell s.disp px py = false) →
        t.reg vF = 0 ∧ (∀ px py, Display.cell t.disp px py = true ↔ SpriteCovers s x y n px py) ∧
          (u.reg vF = 1 ↔
            ∃ r c : Nat, r < n.toNat ∧ c < 8 ∧ (s.readByte (s.i.toNat + r)).getLsbD (7 - c) = true))) ∧
  (∀ (i : Instr) (s t : State) (px : Fin 64) (py : Fin 32), exec i s = .next t →
    (Display.cell s.disp px py = false → Display.cell t.disp px py = true → ∃ x y n, i = .drw x y n) ∧
    (Display.cell s.disp px py = true → Display.cell t.disp px py = false → i = .cls ∨ ∃ x y n, i = .drw x y n))

/-! ### Keypad and timers (45_keypad_timers.md) -/

/-- `SKP Vx` (R220), word Ex9E, and `SKNP Vx` (R221), word ExA1: the key is the low nibble of VX (D13); PC <- P + 4 when it is held, or not held, and
P + 2 otherwise, and nothing else changes. -/
def Obligations.KeySkipsTestTheLowNibble : Prop :=
  ∀ (x k : Nibble) (s : State), k.toNat = (s.reg x).toNat % 16 →
    decode (packXKK 0xE x 0x9E) = .instr (.skp x) ∧ decode (packXKK 0xE x 0xA1) = .instr (.sknp x) ∧
    (∃ t, exec (.skp x) s = .next t ∧ t.pc = (if s.keyHeld k = true then s.pc + 4 else s.pc + 2) ∧
      UnchangedExcept [.pc] s t) ∧
    (∃ t, exec (.sknp x) s = .next t ∧ t.pc = (if s.keyHeld k = true then s.pc + 2 else s.pc + 4) ∧
      UnchangedExcept [.pc] s t)

/-- `LD Vx, K` (R222), word Fx0A: with a key held, VX takes the least held key and PC <- P + 2; with none held, nothing changes at all
(D14). -/
def Obligations.KeyWaitTakesTheLeastHeldKey : Prop :=
  ∀ (x : Nibble) (s : State),
    decode (packXKK 0xF x 0x0A) = .instr (.ldVxK x) ∧
    (∀ k : Nibble, s.keyHeld k = true → (∀ j : Nibble, j.toNat < k.toNat → s.keyHeld j = false) →
      ∃ t, exec (.ldVxK x) s = .next t ∧ (t.reg x).toNat = k.toNat ∧ t.pc = s.pc + 2 ∧ RegsUnchangedExcept [x] s t ∧
        UnchangedExcept [.v, .pc] s t) ∧
    ((∀ k, s.keyHeld k = false) → exec (.ldVxK x) s = .next s)

/-- `LD Vx, DT` (R223), word Fx07, `LD DT, Vx` (R224), word Fx15, and `LD ST, Vx` (R225), word Fx18: the value moves, PC <- P + 2, and nothing else
changes; after LD ST, SOUND_OUT is 1 exactly when VX > 0. -/
def Obligations.TimersAreReadAndSet : Prop :=
  ∀ (x : Nibble) (s : State),
    decode (packXKK 0xF x 0x07) = .instr (.ldVxDt x) ∧ decode (packXKK 0xF x 0x15) = .instr (.ldDtVx x) ∧
    decode (packXKK 0xF x 0x18) = .instr (.ldStVx x) ∧
    (∃ t, exec (.ldVxDt x) s = .next t ∧ t.reg x = s.dt ∧ t.pc = s.pc + 2 ∧ RegsUnchangedExcept [x] s t ∧
      UnchangedExcept [.v, .pc] s t) ∧
    (∃ t, exec (.ldDtVx x) s = .next t ∧ t.dt = s.reg x ∧ t.pc = s.pc + 2 ∧ UnchangedExcept [.dt, .pc] s t) ∧
    (∃ t, exec (.ldStVx x) s = .next t ∧ t.st = s.reg x ∧ t.pc = s.pc + 2 ∧ UnchangedExcept [.st, .pc] s t ∧
      (t.soundOut = true ↔ 0 < (s.reg x).toNat))

/-! ### The host's operations (10_state.md, 60_exceptions.md, 70_reset_and_hazards.md) -/

/-- TICK (60_exceptions.md R260, R261) decrements DT and ST by 1 each, clamped at 0, and changes nothing else, whether or not a fault is
latched (R263, D28); k Ticks, one after another, leave DT = max(d - k, 0), and ST likewise. -/
def Obligations.TicksCountDownToZero : Prop :=
  (∀ s : State, ∃ t, hostOp .tick s = .next t ∧ t.dt.toNat = s.dt.toNat - 1 ∧ t.st.toNat = s.st.toNat - 1 ∧
    UnchangedExcept [.dt, .st] s t) ∧
  (∀ (k : Nat) (s : State), ∃ t, ticks k s = .next t ∧ t.dt.toNat = s.dt.toNat - k ∧ t.st.toNat = s.st.toNat - k ∧
    UnchangedExcept [.dt, .st] s t)

/-- SETKEY(k, b) (70_reset_and_hazards.md R292) sets KEY[k] to b and changes nothing else. -/
def Obligations.SetKeyWritesOneKey : Prop :=
  ∀ (s : State) (k : Nibble) (b : Bool),
    ∃ t, hostOp (.setKey k b) s = .next t ∧ (∀ j, t.keyHeld j = if j = k then b else s.keyHeld j) ∧ UnchangedExcept [.key] s t

/-- LOAD(image) (70_reset_and_hazards.md R283) while it is a move of the boot sequence: an image of at most 3584 bytes is copied to 0x200 on,
every other byte keeps its value, and LOAD returns ok; a longer one changes no component and LOAD returns CapacityExceeded.  Either way
no register, timer, display cell or FAULT changes.  `loadOpen` and `loadReply` are the model's record of R290 and of the value
returned (notes/assumptions/7.md). -/
def Obligations.LoadCopiesTheImage : Prop :=
  ∀ (s : State) (image : List Byte), s.env.loadOpen = true →
    ∃ t, hostOp (.load image) s = .next t ∧ UnchangedExcept [.mem, .env] s t ∧
      (image.length ≤ 4096 - 0x200 → t.env.loadReply = some .ok ∧ t.env.loadOpen = false ∧ BytesUnchangedOutside 0x200 image.length s t ∧
        ∀ (j : Nat) (h : j < image.length), t.readByte (0x200 + j) = image[j]'h) ∧
      (4096 - 0x200 < image.length → t.env.loadReply = some .capacityExceeded ∧ t.env.loadOpen = true ∧ ∀ a, t.readByte a = s.readByte a)

/-- A new construction (70_reset_and_hazards.md R280, R293; 10_state.md R39): whatever the state, a fault latched or not, and whatever the
configuration, which stays, every component of the Machine State takes its construction value: memory the font at FONT_BASE (R33) and 0
elsewhere, PC 0x200, and every other component zero, off, released or none.  What the host has queued stays queued and LOAD is open
again, which is the model's choice (notes/assumptions/13.md). -/
def Obligations.ConstructionStartsAgain : Prop :=
  ∀ s : State, ∃ t, hostOp .construct s = .next t ∧ t.cfg = s.cfg ∧
    (∀ a, t.readByte a =
      if h : s.cfg.fontBase.val ≤ a ∧ a < s.cfg.fontBase.val + 80 then
        s.cfg.font[a - s.cfg.fontBase.val]'(Nat.sub_lt_left_of_lt_add h.1 h.2)
      else 0) ∧
    (∀ k, t.reg k = 0) ∧ t.i = 0 ∧ t.pc = 0x200 ∧ (∀ j : Fin 16, t.stack[j.val]'j.isLt = 0) ∧ t.sp = 0 ∧ t.dt = 0 ∧
    t.st = 0 ∧ (∀ x y, Display.cell t.disp x y = false) ∧ (∀ k, t.keyHeld k = false) ∧ t.fault = none ∧
    t.env = { s.env with loadOpen := true, loadReply := none }

/-- A jump to itself (70_reset_and_hazards.md R295): at a running machine whose instruction at PC is `JP addr` with addr = PC, a Cycle leaves every
component as it is, so the state at that point is the final one. -/
def Obligations.SelfJumpChangesNothing : Prop :=
  ∀ s : State, s.fault = none → s.atSelfJump = true →
    ∃ t, cycle s = .next t ∧ SameComponents s t ∧ t.fault = none ∧ t.atSelfJump = true
end

