-- ==== Sys2Proof/Laws/State.lean ====
section
/-! SUPPORT. One lemma per field per update of the state, each true by unfolding, so that later proofs never unfold an update. -/

namespace Sys2Proof.Machine

variable (s : State)

/-! ### setReg -/

@[simp] theorem State.setReg_mem (k : Nibble) (b : Byte) : (s.setReg k b).mem = s.mem := rfl
@[simp] theorem State.setReg_v (k : Nibble) (b : Byte) : (s.setReg k b).v = s.v.set k.toNat b k.isLt := rfl
@[simp] theorem State.setReg_i (k : Nibble) (b : Byte) : (s.setReg k b).i = s.i := rfl
@[simp] theorem State.setReg_pc (k : Nibble) (b : Byte) : (s.setReg k b).pc = s.pc := rfl
@[simp] theorem State.setReg_stack (k : Nibble) (b : Byte) : (s.setReg k b).stack = s.stack := rfl
@[simp] theorem State.setReg_sp (k : Nibble) (b : Byte) : (s.setReg k b).sp = s.sp := rfl
@[simp] theorem State.setReg_dt (k : Nibble) (b : Byte) : (s.setReg k b).dt = s.dt := rfl
@[simp] theorem State.setReg_st (k : Nibble) (b : Byte) : (s.setReg k b).st = s.st := rfl
@[simp] theorem State.setReg_disp (k : Nibble) (b : Byte) : (s.setReg k b).disp = s.disp := rfl
@[simp] theorem State.setReg_key (k : Nibble) (b : Byte) : (s.setReg k b).key = s.key := rfl
@[simp] theorem State.setReg_fault (k : Nibble) (b : Byte) : (s.setReg k b).fault = s.fault := rfl
@[simp] theorem State.setReg_cfg (k : Nibble) (b : Byte) : (s.setReg k b).cfg = s.cfg := rfl
@[simp] theorem State.setReg_env (k : Nibble) (b : Byte) : (s.setReg k b).env = s.env := rfl

/-! ### setRegs -/

@[simp] theorem State.setRegs_mem (v : Vector Byte 16) : (s.setRegs v).mem = s.mem := rfl
@[simp] theorem State.setRegs_v (v : Vector Byte 16) : (s.setRegs v).v = v := rfl
@[simp] theorem State.setRegs_i (v : Vector Byte 16) : (s.setRegs v).i = s.i := rfl
@[simp] theorem State.setRegs_pc (v : Vector Byte 16) : (s.setRegs v).pc = s.pc := rfl
@[simp] theorem State.setRegs_stack (v : Vector Byte 16) : (s.setRegs v).stack = s.stack := rfl
@[simp] theorem State.setRegs_sp (v : Vector Byte 16) : (s.setRegs v).sp = s.sp := rfl
@[simp] theorem State.setRegs_dt (v : Vector Byte 16) : (s.setRegs v).dt = s.dt := rfl
@[simp] theorem State.setRegs_st (v : Vector Byte 16) : (s.setRegs v).st = s.st := rfl
@[simp] theorem State.setRegs_disp (v : Vector Byte 16) : (s.setRegs v).disp = s.disp := rfl
@[simp] theorem State.setRegs_key (v : Vector Byte 16) : (s.setRegs v).key = s.key := rfl
@[simp] theorem State.setRegs_fault (v : Vector Byte 16) : (s.setRegs v).fault = s.fault := rfl
@[simp] theorem State.setRegs_cfg (v : Vector Byte 16) : (s.setRegs v).cfg = s.cfg := rfl
@[simp] theorem State.setRegs_env (v : Vector Byte 16) : (s.setRegs v).env = s.env := rfl

/-! ### setI -/

@[simp] theorem State.setI_mem (w : Word) : (s.setI w).mem = s.mem := rfl
@[simp] theorem State.setI_v (w : Word) : (s.setI w).v = s.v := rfl
@[simp] theorem State.setI_i (w : Word) : (s.setI w).i = w := rfl
@[simp] theorem State.setI_pc (w : Word) : (s.setI w).pc = s.pc := rfl
@[simp] theorem State.setI_stack (w : Word) : (s.setI w).stack = s.stack := rfl
@[simp] theorem State.setI_sp (w : Word) : (s.setI w).sp = s.sp := rfl
@[simp] theorem State.setI_dt (w : Word) : (s.setI w).dt = s.dt := rfl
@[simp] theorem State.setI_st (w : Word) : (s.setI w).st = s.st := rfl
@[simp] theorem State.setI_disp (w : Word) : (s.setI w).disp = s.disp := rfl
@[simp] theorem State.setI_key (w : Word) : (s.setI w).key = s.key := rfl
@[simp] theorem State.setI_fault (w : Word) : (s.setI w).fault = s.fault := rfl
@[simp] theorem State.setI_cfg (w : Word) : (s.setI w).cfg = s.cfg := rfl
@[simp] theorem State.setI_env (w : Word) : (s.setI w).env = s.env := rfl

/-! ### setPc -/

@[simp] theorem State.setPc_mem (w : Word) : (s.setPc w).mem = s.mem := rfl
@[simp] theorem State.setPc_v (w : Word) : (s.setPc w).v = s.v := rfl
@[simp] theorem State.setPc_i (w : Word) : (s.setPc w).i = s.i := rfl
@[simp] theorem State.setPc_pc (w : Word) : (s.setPc w).pc = w := rfl
@[simp] theorem State.setPc_stack (w : Word) : (s.setPc w).stack = s.stack := rfl
@[simp] theorem State.setPc_sp (w : Word) : (s.setPc w).sp = s.sp := rfl
@[simp] theorem State.setPc_dt (w : Word) : (s.setPc w).dt = s.dt := rfl
@[simp] theorem State.setPc_st (w : Word) : (s.setPc w).st = s.st := rfl
@[simp] theorem State.setPc_disp (w : Word) : (s.setPc w).disp = s.disp := rfl
@[simp] theorem State.setPc_key (w : Word) : (s.setPc w).key = s.key := rfl
@[simp] theorem State.setPc_fault (w : Word) : (s.setPc w).fault = s.fault := rfl
@[simp] theorem State.setPc_cfg (w : Word) : (s.setPc w).cfg = s.cfg := rfl
@[simp] theorem State.setPc_env (w : Word) : (s.setPc w).env = s.env := rfl

/-! ### setDt -/

@[simp] theorem State.setDt_mem (b : Byte) : (s.setDt b).mem = s.mem := rfl
@[simp] theorem State.setDt_v (b : Byte) : (s.setDt b).v = s.v := rfl
@[simp] theorem State.setDt_i (b : Byte) : (s.setDt b).i = s.i := rfl
@[simp] theorem State.setDt_pc (b : Byte) : (s.setDt b).pc = s.pc := rfl
@[simp] theorem State.setDt_stack (b : Byte) : (s.setDt b).stack = s.stack := rfl
@[simp] theorem State.setDt_sp (b : Byte) : (s.setDt b).sp = s.sp := rfl
@[simp] theorem State.setDt_dt (b : Byte) : (s.setDt b).dt = b := rfl
@[simp] theorem State.setDt_st (b : Byte) : (s.setDt b).st = s.st := rfl
@[simp] theorem State.setDt_disp (b : Byte) : (s.setDt b).disp = s.disp := rfl
@[simp] theorem State.setDt_key (b : Byte) : (s.setDt b).key = s.key := rfl
@[simp] theorem State.setDt_fault (b : Byte) : (s.setDt b).fault = s.fault := rfl
@[simp] theorem State.setDt_cfg (b : Byte) : (s.setDt b).cfg = s.cfg := rfl
@[simp] theorem State.setDt_env (b : Byte) : (s.setDt b).env = s.env := rfl

/-! ### setSt -/

@[simp] theorem State.setSt_mem (b : Byte) : (s.setSt b).mem = s.mem := rfl
@[simp] theorem State.setSt_v (b : Byte) : (s.setSt b).v = s.v := rfl
@[simp] theorem State.setSt_i (b : Byte) : (s.setSt b).i = s.i := rfl
@[simp] theorem State.setSt_pc (b : Byte) : (s.setSt b).pc = s.pc := rfl
@[simp] theorem State.setSt_stack (b : Byte) : (s.setSt b).stack = s.stack := rfl
@[simp] theorem State.setSt_sp (b : Byte) : (s.setSt b).sp = s.sp := rfl
@[simp] theorem State.setSt_dt (b : Byte) : (s.setSt b).dt = s.dt := rfl
@[simp] theorem State.setSt_st (b : Byte) : (s.setSt b).st = b := rfl
@[simp] theorem State.setSt_disp (b : Byte) : (s.setSt b).disp = s.disp := rfl
@[simp] theorem State.setSt_key (b : Byte) : (s.setSt b).key = s.key := rfl
@[simp] theorem State.setSt_fault (b : Byte) : (s.setSt b).fault = s.fault := rfl
@[simp] theorem State.setSt_cfg (b : Byte) : (s.setSt b).cfg = s.cfg := rfl
@[simp] theorem State.setSt_env (b : Byte) : (s.setSt b).env = s.env := rfl

/-! ### setDisp -/

@[simp] theorem State.setDisp_mem (d : Display) : (s.setDisp d).mem = s.mem := rfl
@[simp] theorem State.setDisp_v (d : Display) : (s.setDisp d).v = s.v := rfl
@[simp] theorem State.setDisp_i (d : Display) : (s.setDisp d).i = s.i := rfl
@[simp] theorem State.setDisp_pc (d : Display) : (s.setDisp d).pc = s.pc := rfl
@[simp] theorem State.setDisp_stack (d : Display) : (s.setDisp d).stack = s.stack := rfl
@[simp] theorem State.setDisp_sp (d : Display) : (s.setDisp d).sp = s.sp := rfl
@[simp] theorem State.setDisp_dt (d : Display) : (s.setDisp d).dt = s.dt := rfl
@[simp] theorem State.setDisp_st (d : Display) : (s.setDisp d).st = s.st := rfl
@[simp] theorem State.setDisp_disp (d : Display) : (s.setDisp d).disp = d := rfl
@[simp] theorem State.setDisp_key (d : Display) : (s.setDisp d).key = s.key := rfl
@[simp] theorem State.setDisp_fault (d : Display) : (s.setDisp d).fault = s.fault := rfl
@[simp] theorem State.setDisp_cfg (d : Display) : (s.setDisp d).cfg = s.cfg := rfl
@[simp] theorem State.setDisp_env (d : Display) : (s.setDisp d).env = s.env := rfl

/-! ### setKey -/

@[simp] theorem State.setKey_mem (k : Nibble) (b : Bool) : (s.setKey k b).mem = s.mem := rfl
@[simp] theorem State.setKey_v (k : Nibble) (b : Bool) : (s.setKey k b).v = s.v := rfl
@[simp] theorem State.setKey_i (k : Nibble) (b : Bool) : (s.setKey k b).i = s.i := rfl
@[simp] theorem State.setKey_pc (k : Nibble) (b : Bool) : (s.setKey k b).pc = s.pc := rfl
@[simp] theorem State.setKey_stack (k : Nibble) (b : Bool) : (s.setKey k b).stack = s.stack := rfl
@[simp] theorem State.setKey_sp (k : Nibble) (b : Bool) : (s.setKey k b).sp = s.sp := rfl
@[simp] theorem State.setKey_dt (k : Nibble) (b : Bool) : (s.setKey k b).dt = s.dt := rfl
@[simp] theorem State.setKey_st (k : Nibble) (b : Bool) : (s.setKey k b).st = s.st := rfl
@[simp] theorem State.setKey_disp (k : Nibble) (b : Bool) : (s.setKey k b).disp = s.disp := rfl
@[simp] theorem State.setKey_key (k : Nibble) (b : Bool) : (s.setKey k b).key = s.key.set k.toNat b k.isLt := rfl
@[simp] theorem State.setKey_fault (k : Nibble) (b : Bool) : (s.setKey k b).fault = s.fault := rfl
@[simp] theorem State.setKey_cfg (k : Nibble) (b : Bool) : (s.setKey k b).cfg = s.cfg := rfl
@[simp] theorem State.setKey_env (k : Nibble) (b : Bool) : (s.setKey k b).env = s.env := rfl

/-! ### setEnv -/

@[simp] theorem State.setEnv_mem (e : Env) : (s.setEnv e).mem = s.mem := rfl
@[simp] theorem State.setEnv_v (e : Env) : (s.setEnv e).v = s.v := rfl
@[simp] theorem State.setEnv_i (e : Env) : (s.setEnv e).i = s.i := rfl
@[simp] theorem State.setEnv_pc (e : Env) : (s.setEnv e).pc = s.pc := rfl
@[simp] theorem State.setEnv_stack (e : Env) : (s.setEnv e).stack = s.stack := rfl
@[simp] theorem State.setEnv_sp (e : Env) : (s.setEnv e).sp = s.sp := rfl
@[simp] theorem State.setEnv_dt (e : Env) : (s.setEnv e).dt = s.dt := rfl
@[simp] theorem State.setEnv_st (e : Env) : (s.setEnv e).st = s.st := rfl
@[simp] theorem State.setEnv_disp (e : Env) : (s.setEnv e).disp = s.disp := rfl
@[simp] theorem State.setEnv_key (e : Env) : (s.setEnv e).key = s.key := rfl
@[simp] theorem State.setEnv_fault (e : Env) : (s.setEnv e).fault = s.fault := rfl
@[simp] theorem State.setEnv_cfg (e : Env) : (s.setEnv e).cfg = s.cfg := rfl
@[simp] theorem State.setEnv_env (e : Env) : (s.setEnv e).env = e := rfl

/-! ### writeByte -/

@[simp] theorem State.writeByte_mem (a : Nat) (b : Byte) : (s.writeByte a b).mem = Memory.write s.cfg s.mem a b := rfl
@[simp] theorem State.writeByte_v (a : Nat) (b : Byte) : (s.writeByte a b).v = s.v := rfl
@[simp] theorem State.writeByte_i (a : Nat) (b : Byte) : (s.writeByte a b).i = s.i := rfl
@[simp] theorem State.writeByte_pc (a : Nat) (b : Byte) : (s.writeByte a b).pc = s.pc := rfl
@[simp] theorem State.writeByte_stack (a : Nat) (b : Byte) : (s.writeByte a b).stack = s.stack := rfl
@[simp] theorem State.writeByte_sp (a : Nat) (b : Byte) : (s.writeByte a b).sp = s.sp := rfl
@[simp] theorem State.writeByte_dt (a : Nat) (b : Byte) : (s.writeByte a b).dt = s.dt := rfl
@[simp] theorem State.writeByte_st (a : Nat) (b : Byte) : (s.writeByte a b).st = s.st := rfl
@[simp] theorem State.writeByte_disp (a : Nat) (b : Byte) : (s.writeByte a b).disp = s.disp := rfl
@[simp] theorem State.writeByte_key (a : Nat) (b : Byte) : (s.writeByte a b).key = s.key := rfl
@[simp] theorem State.writeByte_fault (a : Nat) (b : Byte) : (s.writeByte a b).fault = s.fault := rfl
@[simp] theorem State.writeByte_cfg (a : Nat) (b : Byte) : (s.writeByte a b).cfg = s.cfg := rfl
@[simp] theorem State.writeByte_env (a : Nat) (b : Byte) : (s.writeByte a b).env = s.env := rfl

/-! ### advance -/

@[simp] theorem State.advance_mem : (s.advance).mem = s.mem := rfl
@[simp] theorem State.advance_v : (s.advance).v = s.v := rfl
@[simp] theorem State.advance_i : (s.advance).i = s.i := rfl
@[simp] theorem State.advance_pc : (s.advance).pc = s.pc + 2 := rfl
@[simp] theorem State.advance_stack : (s.advance).stack = s.stack := rfl
@[simp] theorem State.advance_sp : (s.advance).sp = s.sp := rfl
@[simp] theorem State.advance_dt : (s.advance).dt = s.dt := rfl
@[simp] theorem State.advance_st : (s.advance).st = s.st := rfl
@[simp] theorem State.advance_disp : (s.advance).disp = s.disp := rfl
@[simp] theorem State.advance_key : (s.advance).key = s.key := rfl
@[simp] theorem State.advance_fault : (s.advance).fault = s.fault := rfl
@[simp] theorem State.advance_cfg : (s.advance).cfg = s.cfg := rfl
@[simp] theorem State.advance_env : (s.advance).env = s.env := rfl

/-! ### skipIf -/

@[simp] theorem State.skipIf_mem (c : Bool) : (s.skipIf c).mem = s.mem := rfl
@[simp] theorem State.skipIf_v (c : Bool) : (s.skipIf c).v = s.v := rfl
@[simp] theorem State.skipIf_i (c : Bool) : (s.skipIf c).i = s.i := rfl
@[simp] theorem State.skipIf_pc (c : Bool) : (s.skipIf c).pc = if c then s.pc + 4 else s.pc + 2 := rfl
@[simp] theorem State.skipIf_stack (c : Bool) : (s.skipIf c).stack = s.stack := rfl
@[simp] theorem State.skipIf_sp (c : Bool) : (s.skipIf c).sp = s.sp := rfl
@[simp] theorem State.skipIf_dt (c : Bool) : (s.skipIf c).dt = s.dt := rfl
@[simp] theorem State.skipIf_st (c : Bool) : (s.skipIf c).st = s.st := rfl
@[simp] theorem State.skipIf_disp (c : Bool) : (s.skipIf c).disp = s.disp := rfl
@[simp] theorem State.skipIf_key (c : Bool) : (s.skipIf c).key = s.key := rfl
@[simp] theorem State.skipIf_fault (c : Bool) : (s.skipIf c).fault = s.fault := rfl
@[simp] theorem State.skipIf_cfg (c : Bool) : (s.skipIf c).cfg = s.cfg := rfl
@[simp] theorem State.skipIf_env (c : Bool) : (s.skipIf c).env = s.env := rfl

/-! ### tick -/

@[simp] theorem State.tick_mem : (s.tick).mem = s.mem := rfl
@[simp] theorem State.tick_v : (s.tick).v = s.v := rfl
@[simp] theorem State.tick_i : (s.tick).i = s.i := rfl
@[simp] theorem State.tick_pc : (s.tick).pc = s.pc := rfl
@[simp] theorem State.tick_stack : (s.tick).stack = s.stack := rfl
@[simp] theorem State.tick_sp : (s.tick).sp = s.sp := rfl
@[simp] theorem State.tick_dt : (s.tick).dt = countDown s.dt := rfl
@[simp] theorem State.tick_st : (s.tick).st = countDown s.st := rfl
@[simp] theorem State.tick_disp : (s.tick).disp = s.disp := rfl
@[simp] theorem State.tick_key : (s.tick).key = s.key := rfl
@[simp] theorem State.tick_fault : (s.tick).fault = s.fault := rfl
@[simp] theorem State.tick_cfg : (s.tick).cfg = s.cfg := rfl
@[simp] theorem State.tick_env : (s.tick).env = s.env := rfl

/-! ### closeLoad -/

@[simp] theorem State.closeLoad_mem : s.closeLoad.mem = s.mem := rfl
@[simp] theorem State.closeLoad_v : s.closeLoad.v = s.v := rfl
@[simp] theorem State.closeLoad_i : s.closeLoad.i = s.i := rfl
@[simp] theorem State.closeLoad_pc : s.closeLoad.pc = s.pc := rfl
@[simp] theorem State.closeLoad_stack : s.closeLoad.stack = s.stack := rfl
@[simp] theorem State.closeLoad_sp : s.closeLoad.sp = s.sp := rfl
@[simp] theorem State.closeLoad_dt : s.closeLoad.dt = s.dt := rfl
@[simp] theorem State.closeLoad_st : s.closeLoad.st = s.st := rfl
@[simp] theorem State.closeLoad_disp : s.closeLoad.disp = s.disp := rfl
@[simp] theorem State.closeLoad_key : s.closeLoad.key = s.key := rfl
@[simp] theorem State.closeLoad_fault : s.closeLoad.fault = s.fault := rfl
@[simp] theorem State.closeLoad_cfg : s.closeLoad.cfg = s.cfg := rfl
@[simp] theorem State.closeLoad_env : s.closeLoad.env = { s.env with loadOpen := false } := rfl

/-! ### writeBytes -/

@[simp] theorem State.writeBytes_v (base : Nat) (bs : List Byte) : (s.writeBytes base bs).v = s.v := by
  induction bs generalizing s base with
  | nil => rfl
  | cons b rest ih => simp [State.writeBytes, ih]
@[simp] theorem State.writeBytes_i (base : Nat) (bs : List Byte) : (s.writeBytes base bs).i = s.i := by
  induction bs generalizing s base with
  | nil => rfl
  | cons b rest ih => simp [State.writeBytes, ih]
@[simp] theorem State.writeBytes_pc (base : Nat) (bs : List Byte) : (s.writeBytes base bs).pc = s.pc := by
  induction bs generalizing s base with
  | nil => rfl
  | cons b rest ih => simp [State.writeBytes, ih]
@[simp] theorem State.writeBytes_stack (base : Nat) (bs : List Byte) : (s.writeBytes base bs).stack = s.stack := by
  induction bs generalizing s base with
  | nil => rfl
  | cons b rest ih => simp [State.writeBytes, ih]
@[simp] theorem State.writeBytes_sp (base : Nat) (bs : List Byte) : (s.writeBytes base bs).sp = s.sp := by
  induction bs generalizing s base with
  | nil => rfl
  | cons b rest ih => simp [State.writeBytes, ih]
@[simp] theorem State.writeBytes_dt (base : Nat) (bs : List Byte) : (s.writeBytes base bs).dt = s.dt := by
  induction bs generalizing s base with
  | nil => rfl
  | cons b rest ih => simp [State.writeBytes, ih]
@[simp] theorem State.writeBytes_st (base : Nat) (bs : List Byte) : (s.writeBytes base bs).st = s.st := by
  induction bs generalizing s base with
  | nil => rfl
  | cons b rest ih => simp [State.writeBytes, ih]
@[simp] theorem State.writeBytes_disp (base : Nat) (bs : List Byte) : (s.writeBytes base bs).disp = s.disp := by
  induction bs generalizing s base with
  | nil => rfl
  | cons b rest ih => simp [State.writeBytes, ih]
@[simp] theorem State.writeBytes_key (base : Nat) (bs : List Byte) : (s.writeBytes base bs).key = s.key := by
  induction bs generalizing s base with
  | nil => rfl
  | cons b rest ih => simp [State.writeBytes, ih]
@[simp] theorem State.writeBytes_fault (base : Nat) (bs : List Byte) : (s.writeBytes base bs).fault = s.fault := by
  induction bs generalizing s base with
  | nil => rfl
  | cons b rest ih => simp [State.writeBytes, ih]
@[simp] theorem State.writeBytes_cfg (base : Nat) (bs : List Byte) : (s.writeBytes base bs).cfg = s.cfg := by
  induction bs generalizing s base with
  | nil => rfl
  | cons b rest ih => simp [State.writeBytes, ih]
@[simp] theorem State.writeBytes_env (base : Nat) (bs : List Byte) : (s.writeBytes base bs).env = s.env := by
  induction bs generalizing s base with
  | nil => rfl
  | cons b rest ih => simp [State.writeBytes, ih]

/-! ### The flag-writing updates -/

@[simp] theorem State.setRegFlag_mem (x : Nibble) (r : Byte) (b : Bool) : (s.setRegFlag x r b).mem = s.mem := rfl
@[simp] theorem State.setRegFlag_i (x : Nibble) (r : Byte) (b : Bool) : (s.setRegFlag x r b).i = s.i := rfl
@[simp] theorem State.setRegFlag_pc (x : Nibble) (r : Byte) (b : Bool) : (s.setRegFlag x r b).pc = s.pc := rfl
@[simp] theorem State.setRegFlag_stack (x : Nibble) (r : Byte) (b : Bool) : (s.setRegFlag x r b).stack = s.stack := rfl
@[simp] theorem State.setRegFlag_sp (x : Nibble) (r : Byte) (b : Bool) : (s.setRegFlag x r b).sp = s.sp := rfl
@[simp] theorem State.setRegFlag_dt (x : Nibble) (r : Byte) (b : Bool) : (s.setRegFlag x r b).dt = s.dt := rfl
@[simp] theorem State.setRegFlag_st (x : Nibble) (r : Byte) (b : Bool) : (s.setRegFlag x r b).st = s.st := rfl
@[simp] theorem State.setRegFlag_disp (x : Nibble) (r : Byte) (b : Bool) : (s.setRegFlag x r b).disp = s.disp := rfl
@[simp] theorem State.setRegFlag_key (x : Nibble) (r : Byte) (b : Bool) : (s.setRegFlag x r b).key = s.key := rfl
@[simp] theorem State.setRegFlag_fault (x : Nibble) (r : Byte) (b : Bool) : (s.setRegFlag x r b).fault = s.fault := rfl
@[simp] theorem State.setRegFlag_cfg (x : Nibble) (r : Byte) (b : Bool) : (s.setRegFlag x r b).cfg = s.cfg := rfl
@[simp] theorem State.setRegFlag_env (x : Nibble) (r : Byte) (b : Bool) : (s.setRegFlag x r b).env = s.env := rfl
@[simp] theorem State.setRegLogic_mem (x : Nibble) (r : Byte) : (s.setRegLogic x r).mem = s.mem := by
  unfold State.setRegLogic; split <;> rfl
@[simp] theorem State.setRegLogic_i (x : Nibble) (r : Byte) : (s.setRegLogic x r).i = s.i := by
  unfold State.setRegLogic; split <;> rfl
@[simp] theorem State.setRegLogic_pc (x : Nibble) (r : Byte) : (s.setRegLogic x r).pc = s.pc := by
  unfold State.setRegLogic; split <;> rfl
@[simp] theorem State.setRegLogic_stack (x : Nibble) (r : Byte) : (s.setRegLogic x r).stack = s.stack := by
  unfold State.setRegLogic; split <;> rfl
@[simp] theorem State.setRegLogic_sp (x : Nibble) (r : Byte) : (s.setRegLogic x r).sp = s.sp := by
  unfold State.setRegLogic; split <;> rfl
@[simp] theorem State.setRegLogic_dt (x : Nibble) (r : Byte) : (s.setRegLogic x r).dt = s.dt := by
  unfold State.setRegLogic; split <;> rfl
@[simp] theorem State.setRegLogic_st (x : Nibble) (r : Byte) : (s.setRegLogic x r).st = s.st := by
  unfold State.setRegLogic; split <;> rfl
@[simp] theorem State.setRegLogic_disp (x : Nibble) (r : Byte) : (s.setRegLogic x r).disp = s.disp := by
  unfold State.setRegLogic; split <;> rfl
@[simp] theorem State.setRegLogic_key (x : Nibble) (r : Byte) : (s.setRegLogic x r).key = s.key := by
  unfold State.setRegLogic; split <;> rfl
@[simp] theorem State.setRegLogic_fault (x : Nibble) (r : Byte) : (s.setRegLogic x r).fault = s.fault := by
  unfold State.setRegLogic; split <;> rfl
@[simp] theorem State.setRegLogic_cfg (x : Nibble) (r : Byte) : (s.setRegLogic x r).cfg = s.cfg := by
  unfold State.setRegLogic; split <;> rfl
@[simp] theorem State.setRegLogic_env (x : Nibble) (r : Byte) : (s.setRegLogic x r).env = s.env := by
  unfold State.setRegLogic; split <;> rfl

/-! ### Registers and keys -/

theorem State.reg_congr {s t : State} (h : t.v = s.v) (k : Nibble) : t.reg k = s.reg k := by simp [State.reg, h]

theorem State.keyHeld_congr {s t : State} (h : t.key = s.key) (k : Nibble) : t.keyHeld k = s.keyHeld k := by
  simp [State.keyHeld, h]

@[simp] theorem State.reg_setReg (k j : Nibble) (b : Byte) : (s.setReg k b).reg j = if j = k then b else s.reg j := by
  simp only [State.reg, State.setReg_v, Vector.getElem_set, BitVec.toNat_inj, eq_comm (a := k)]

@[simp] theorem State.reg_setRegs (v : Vector Byte 16) (k : Nibble) : (s.setRegs v).reg k = v[k.toNat]'k.isLt := rfl
@[simp] theorem State.reg_setI (w : Word) (k : Nibble) : (s.setI w).reg k = s.reg k := rfl
@[simp] theorem State.reg_setPc (w : Word) (k : Nibble) : (s.setPc w).reg k = s.reg k := rfl
@[simp] theorem State.reg_setDt (b : Byte) (k : Nibble) : (s.setDt b).reg k = s.reg k := rfl
@[simp] theorem State.reg_setSt (b : Byte) (k : Nibble) : (s.setSt b).reg k = s.reg k := rfl
@[simp] theorem State.reg_setDisp (d : Display) (k : Nibble) : (s.setDisp d).reg k = s.reg k := rfl
@[simp] theorem State.reg_setKey (j : Nibble) (b : Bool) (k : Nibble) : (s.setKey j b).reg k = s.reg k := rfl
@[simp] theorem State.reg_setEnv (e : Env) (k : Nibble) : (s.setEnv e).reg k = s.reg k := rfl
@[simp] theorem State.reg_writeByte (a : Nat) (b : Byte) (k : Nibble) : (s.writeByte a b).reg k = s.reg k := rfl
@[simp] theorem State.reg_advance (k : Nibble) : s.advance.reg k = s.reg k := rfl
@[simp] theorem State.reg_tick (k : Nibble) : s.tick.reg k = s.reg k := rfl
@[simp] theorem State.reg_closeLoad (k : Nibble) : s.closeLoad.reg k = s.reg k := rfl
@[simp] theorem State.reg_skipIf (c : Bool) (k : Nibble) : (s.skipIf c).reg k = s.reg k := rfl
@[simp] theorem State.reg_writeBytes (base : Nat) (bs : List Byte) (k : Nibble) : (s.writeBytes base bs).reg k = s.reg k :=
  State.reg_congr (s.writeBytes_v base bs) k

@[simp] theorem State.reg_setRegFlag (x j : Nibble) (r : Byte) (b : Bool) :
    (s.setRegFlag x r b).reg j = if j = vF then flagByte b else if j = x then r else s.reg j := by
  simp [State.setRegFlag]

theorem State.reg_setRegLogic (x j : Nibble) (r : Byte) :
    (s.setRegLogic x r).reg j = if s.cfg.logicVfReset = true ∧ j = vF then 0 else if j = x then r else s.reg j := by
  unfold State.setRegLogic
  split <;> simp_all

@[simp] theorem State.keyHeld_setKey (k j : Nibble) (b : Bool) :
    (s.setKey k b).keyHeld j = if j = k then b else s.keyHeld j := by
  simp only [State.keyHeld, State.setKey_key, Vector.getElem_set, BitVec.toNat_inj, eq_comm (a := k)]

/-! ### Memory reads across updates that leave memory and the configuration alone -/

theorem State.readByte_congr {s t : State} (hm : t.mem = s.mem) (hc : t.cfg = s.cfg) (a : Nat) :
    t.readByte a = s.readByte a := by simp [State.readByte, hm, hc]

@[simp] theorem State.readByte_setReg (k : Nibble) (b : Byte) (a : Nat) : (s.setReg k b).readByte a = s.readByte a := rfl
@[simp] theorem State.readByte_setRegs (v : Vector Byte 16) (a : Nat) : (s.setRegs v).readByte a = s.readByte a := rfl
@[simp] theorem State.readByte_setI (w : Word) (a : Nat) : (s.setI w).readByte a = s.readByte a := rfl
@[simp] theorem State.readByte_setPc (w : Word) (a : Nat) : (s.setPc w).readByte a = s.readByte a := rfl
@[simp] theorem State.readByte_setDt (b : Byte) (a : Nat) : (s.setDt b).readByte a = s.readByte a := rfl
@[simp] theorem State.readByte_setSt (b : Byte) (a : Nat) : (s.setSt b).readByte a = s.readByte a := rfl
@[simp] theorem State.readByte_setDisp (d : Display) (a : Nat) : (s.setDisp d).readByte a = s.readByte a := rfl
@[simp] theorem State.readByte_setKey (k : Nibble) (b : Bool) (a : Nat) : (s.setKey k b).readByte a = s.readByte a := rfl
@[simp] theorem State.readByte_setEnv (e : Env) (a : Nat) : (s.setEnv e).readByte a = s.readByte a := rfl
@[simp] theorem State.readByte_advance (a : Nat) : (s.advance).readByte a = s.readByte a := rfl
@[simp] theorem State.readByte_skipIf (c : Bool) (a : Nat) : (s.skipIf c).readByte a = s.readByte a := rfl
@[simp] theorem State.readByte_tick (a : Nat) : (s.tick).readByte a = s.readByte a := rfl
@[simp] theorem State.readByte_closeLoad (a : Nat) : s.closeLoad.readByte a = s.readByte a := rfl
@[simp] theorem State.readByte_setRegFlag (x : Nibble) (r : Byte) (b : Bool) (a : Nat) :
    (s.setRegFlag x r b).readByte a = s.readByte a := rfl
@[simp] theorem State.readByte_setRegLogic (x : Nibble) (r : Byte) (a : Nat) :
    (s.setRegLogic x r).readByte a = s.readByte a :=
  State.readByte_congr (s.setRegLogic_mem x r) (s.setRegLogic_cfg x r) a

end Sys2Proof.Machine
end

