-- ==== Sys2Proof/Laws/Memory.lean ====
section
/-! SUPPORT. Memory: a read after a write, the canonical form kept by every write, and the byte lists of a transfer. -/

namespace Sys2Proof.Machine

/-! ### One byte -/

theorem Memory.find_erase (m : List Host.Cell) (a b : Nat) :
    Memory.find (Memory.erase m a) b = if b = a then none else Memory.find m b := by
  induction m with
  | nil => simp [Memory.erase, Memory.find]
  | cons p rest ih =>
    obtain ⟨d, w⟩ := p
    by_cases had : a = d
    · subst had
      by_cases hb : b = a
      · subst hb; simpa [Memory.erase] using ih
      · simp [Memory.erase, Memory.find, ih, hb]
    · by_cases hbd : b = d
      · subst hbd
        simp [Memory.erase, Memory.find, had, Ne.symm had]
      · simp [Memory.erase, Memory.find, had, hbd, ih]

theorem Memory.find_insert (m : List Host.Cell) (a b : Nat) (v : Byte) (h : Memory.find m a = none) :
    Memory.find (Memory.insert m a v) b = if b = a then some v else Memory.find m b := by
  induction m with
  | nil => rfl
  | cons p rest ih =>
    obtain ⟨d, w⟩ := p
    have had : a ≠ d := by rintro rfl; simp [Memory.find] at h
    have h' : Memory.find rest a = none := by simpa [Memory.find, had] using h
    rw [Memory.insert]
    split
    · rfl
    · rw [Memory.find, ih h']
      by_cases hbd : b = d
      · simp [Memory.find, hbd, Ne.symm had]
      · simp [Memory.find, hbd]

/-- A read after a write: the byte written at its address, and what was there before at every other. -/
theorem Memory.read_write (c : Config) (m : List Host.Cell) (a b : Nat) (v : Byte) :
    Memory.read c (Memory.write c m a v) b = if b = a then v else Memory.read c m b := by
  have herase : Memory.find (Memory.erase m a) a = none := by simp [Memory.find_erase]
  unfold Memory.write
  split
  · rename_i hv
    by_cases hb : b = a <;> simp [Memory.read, Memory.find_erase, hb, hv]
  · by_cases hb : b = a <;> simp [Memory.read, Memory.find_insert _ _ _ _ herase, Memory.find_erase, hb]

/-- A lower bound of the list may be lowered. -/
theorem Memory.wfFrom_mono {c : Config} {m : List Host.Cell} {lo lo' : Nat} (h : Memory.wfFrom c lo m = true) (hle : lo' ≤ lo) :
    Memory.wfFrom c lo' m = true := by
  cases m with
  | nil => rfl
  | cons p rest =>
    simp only [Memory.wfFrom, Bool.and_eq_true, decide_eq_true_eq] at h ⊢
    exact ⟨⟨⟨by omega, h.1.1.2⟩, h.1.2⟩, h.2⟩

theorem Memory.wfFrom_erase {c : Config} {m : List Host.Cell} {lo : Nat} (h : Memory.wfFrom c lo m = true) (a : Nat) :
    Memory.wfFrom c lo (Memory.erase m a) = true := by
  induction m generalizing lo with
  | nil => rfl
  | cons p rest ih =>
    simp only [Memory.wfFrom, Bool.and_eq_true, decide_eq_true_eq] at h
    rw [Memory.erase]
    split
    · exact Memory.wfFrom_mono (ih h.2) (by omega)
    · simp only [Memory.wfFrom, Bool.and_eq_true, decide_eq_true_eq]
      exact ⟨h.1, ih h.2⟩

theorem Memory.wfFrom_insert {c : Config} {m : List Host.Cell} {lo a : Nat} {v : Byte} (h : Memory.wfFrom c lo m = true)
    (hn : Memory.find m a = none) (hlo : lo ≤ a) (ha : a < memSize) (hv : v ≠ unlisted c a) :
    Memory.wfFrom c lo (Memory.insert m a v) = true := by
  induction m generalizing lo with
  | nil => simp [Memory.insert, Memory.wfFrom, hlo, ha, hv]
  | cons p rest ih =>
    obtain ⟨d, w⟩ := p
    have had : a ≠ d := by rintro rfl; simp [Memory.find] at hn
    have hn' : Memory.find rest a = none := by simpa [Memory.find, had] using hn
    simp only [Memory.wfFrom, Bool.and_eq_true, decide_eq_true_eq, bne_iff_ne] at h
    rw [Memory.insert]
    split <;> simp only [Memory.wfFrom, Bool.and_eq_true, decide_eq_true_eq, bne_iff_ne]
    · exact ⟨⟨⟨hlo, ha⟩, hv⟩, ⟨⟨by omega, h.1.1.2⟩, h.1.2⟩, h.2⟩
    · exact ⟨h.1, ih h.2 hn' (by omega)⟩

@[simp] theorem Memory.wf_nil (c : Config) : Memory.wf c [] = true := rfl

/-- Every write of an address below 4096 keeps the canonical form. -/
theorem Memory.wf_write {c : Config} {m : List Host.Cell} {a : Nat} {v : Byte} (h : Memory.wf c m = true) (ha : a < memSize) :
    Memory.wf c (Memory.write c m a v) = true := by
  unfold Memory.write
  split
  · exact Memory.wfFrom_erase h a
  · rename_i hv
    exact Memory.wfFrom_insert (Memory.wfFrom_erase h a) (by simp [Memory.find_erase]) (Nat.zero_le a) ha hv

/-- The canonical form of the machine's memory. -/
abbrev State.memWf (s : State) : Prop := Memory.wf s.cfg s.mem = true

@[simp] theorem State.readByte_writeByte (s : State) (a b : Nat) (v : Byte) :
    (s.writeByte a v).readByte b = if b = a then v else s.readByte b := Memory.read_write s.cfg s.mem a b v

theorem State.memWf_writeByte {s : State} (h : s.memWf) {a : Nat} {v : Byte} (ha : a < memSize) : (s.writeByte a v).memWf :=
  Memory.wf_write h ha

/-! ### Runs of bytes -/

theorem State.memWf_writeBytes {s : State} (h : s.memWf) {base : Nat} {bs : List Byte} (hb : base + bs.length ≤ memSize) :
    (s.writeBytes base bs).memWf := by
  induction bs generalizing s base with
  | nil => exact h
  | cons b rest ih =>
    simp only [List.length_cons] at hb
    exact ih (State.memWf_writeByte h (by omega)) (by omega)

/-- What every address reads after a run of bytes is stored: the byte of the run that falls there, or what was there before. -/
theorem State.readByte_writeBytes (s : State) (base : Nat) (bs : List Byte) (a : Nat) :
    (s.writeBytes base bs).readByte a = if base ≤ a then bs.getD (a - base) (s.readByte a) else s.readByte a := by
  induction bs generalizing s base with
  | nil => simp [State.writeBytes]
  | cons b rest ih =>
    rw [State.writeBytes, ih, State.readByte_writeByte]
    rcases Nat.lt_trichotomy a base with hab | rfl | hab
    · rw [if_neg (by omega), if_neg (by omega), if_neg (by omega)]
    · rw [if_neg (by omega), if_pos rfl, if_pos (Nat.le_refl _)]
      simp
    · rw [if_pos (by omega), if_neg (by omega), if_pos (by omega)]
      obtain ⟨k, hk⟩ : ∃ k, a - base = k + 1 := ⟨a - base - 1, by omega⟩
      rw [hk, show a - (base + 1) = k by omega]
      simp

/-- An address outside the run reads as before. -/
theorem State.readByte_writeBytes_outside (s : State) {base : Nat} {bs : List Byte} {a : Nat}
    (ha : a < base ∨ base + bs.length ≤ a) : (s.writeBytes base bs).readByte a = s.readByte a := by
  rw [State.readByte_writeBytes]
  split
  · rw [List.getD_eq_getElem?_getD, List.getElem?_eq_none (by omega), Option.getD_none]
  · rfl

/-- The j-th address of the run reads the j-th byte. -/
theorem State.readByte_writeBytes_inside (s : State) {base j : Nat} {bs : List Byte} (hj : j < bs.length) :
    (s.writeBytes base bs).readByte (base + j) = bs[j] := by
  rw [State.readByte_writeBytes, if_pos (Nat.le_add_right _ _), Nat.add_sub_cancel_left]
  simp [hj]

@[simp] theorem State.length_readBytes (s : State) (base n : Nat) : (s.readBytes base n).length = n := by
  simp [State.readBytes]

@[simp] theorem State.getElem_readBytes (s : State) (base n k : Nat) (h : k < (s.readBytes base n).length) :
    (s.readBytes base n)[k] = s.readByte (base + k) := by
  simp [State.readBytes]

end Sys2Proof.Machine
end

