-- ==== Sys2Proof/Laws/Checks.lean ====
section
/-! SUPPORT. The address checks of a transfer, and what a guarded instruction or a raised fault can answer. -/

namespace Sys2Proof.Machine

theorem check_eq_none {c : Config} {w : Bool} {a : Nat} :
    check c w a = none ↔ a ≤ 0xFFF ∧ (w = true → c.protectLowMemory = true → 0x200 ≤ a) := by
  unfold check
  cases w <;> cases c.protectLowMemory <;> (repeat' split) <;> simp_all

theorem check_eq_outOfRange {c : Config} {w : Bool} {a : Nat} (h : 0xFFF < a) : check c w a = some .addressOutOfRange := by
  simp [check, h]

theorem check_eq_protected {c : Config} {a : Nat} (hp : c.protectLowMemory = true) (h : a < 0x200) :
    check c true a = some .protectedWrite := by
  simp [check, hp, h, show ¬0xFFF < a by omega]

/-- A check fails with one of two codes. -/
theorem check_some {c : Config} {w : Bool} {a : Nat} {f : FaultCode} (h : check c w a = some f) :
    (f = .addressOutOfRange ∧ 0xFFF < a) ∨ (f = .protectedWrite ∧ w = true ∧ c.protectLowMemory = true ∧ a < 0x200) := by
  unfold check at h
  split at h
  · simp_all
  · split at h <;> simp_all

theorem firstFailure_succ (c : Config) (w : Bool) (base n : Nat) :
    firstFailure c w base (n + 1) =
      (firstFailure c w base n).or ((check c w (base + n)).map fun f => (f, base + n)) := by
  simp [firstFailure, List.range_succ, List.findSome?_append]

/-- No failure: every address passes. -/
theorem firstFailure_eq_none {c : Config} {w : Bool} {base n : Nat} :
    firstFailure c w base n = none ↔ ∀ i, i < n → check c w (base + i) = none := by
  induction n with
  | zero => simp [firstFailure]
  | succ n ih =>
    rw [firstFailure_succ, Option.or_eq_none_iff, ih, Option.map_eq_none_iff]
    constructor
    · rintro ⟨h1, h2⟩ i hi
      rcases Nat.lt_succ_iff_lt_or_eq.mp hi with h | rfl
      · exact h1 i h
      · exact h2
    · exact fun h => ⟨fun i hi => h i (by omega), h n (by omega)⟩

/-- A failure is that of an address of the run, and the addresses before it pass. -/
theorem firstFailure_eq_some {c : Config} {w : Bool} {base n : Nat} {f : FaultCode} {a : Nat} :
    firstFailure c w base n = some (f, a) ↔
      ∃ k, k < n ∧ a = base + k ∧ check c w (base + k) = some f ∧ ∀ j, j < k → check c w (base + j) = none := by
  induction n with
  | zero => simp [firstFailure]
  | succ n ih =>
    rw [firstFailure_succ]
    cases hff : firstFailure c w base n with
    | none =>
      have hall := firstFailure_eq_none.mp hff
      simp only [Option.none_or, Option.map_eq_some_iff, Prod.mk.injEq]
      constructor
      · rintro ⟨g, hg, rfl, rfl⟩
        exact ⟨n, by omega, rfl, hg, hall⟩
      · rintro ⟨k, hk, rfl, hck, -⟩
        rcases Nat.lt_succ_iff_lt_or_eq.mp hk with h | rfl
        · rw [hall k h] at hck; cases hck
        · exact ⟨f, hck, rfl, rfl⟩
    | some p =>
      obtain ⟨g, b⟩ := p
      rw [hff] at ih
      simp only [Option.some_or]
      constructor
      · intro h
        obtain ⟨k, hk, rest⟩ := ih.mp h
        exact ⟨k, by omega, rest⟩
      · rintro ⟨k, hk, rfl, hck, hbefore⟩
        rcases Nat.lt_succ_iff_lt_or_eq.mp hk with h | rfl
        · exact ih.mpr ⟨k, h, rfl, hck, hbefore⟩
        · have : firstFailure c w base k = none := firstFailure_eq_none.mpr hbefore
          rw [hff] at this; cases this

/-- A run that reaches past 0xFFF, with no protected address in it, fails at its first address above 0xFFF. -/
theorem firstFailure_outOfRange {c : Config} {w : Bool} {base n : Nat} (hn : 0 < n) (h : 0x1000 < base + n)
    (hp : w = true → c.protectLowMemory = true → 0x200 ≤ base) :
    firstFailure c w base n = some (.addressOutOfRange, max base 0x1000) := by
  refine firstFailure_eq_some.mpr ⟨max base 0x1000 - base, by omega, by omega, check_eq_outOfRange (by omega), ?_⟩
  intro j hj
  exact check_eq_none.mpr ⟨by omega, fun h1 h2 => by have := hp h1 h2; omega⟩

/-- A write that begins below 0x200 under protection fails at its first address. -/
theorem firstFailure_protected {c : Config} {base n : Nat} (hn : 0 < n) (hp : c.protectLowMemory = true) (h : base < 0x200) :
    firstFailure c true base n = some (.protectedWrite, base) :=
  firstFailure_eq_some.mpr ⟨0, hn, rfl, check_eq_protected hp h, fun _ hj => absurd hj (Nat.not_lt_zero _)⟩

/-- A run that fails nowhere lies below 4096, and at or above 0x200 where it is a protected write. -/
theorem firstFailure_none_bound {c : Config} {w : Bool} {base n : Nat} (h : firstFailure c w base n = none) (hn : 0 < n) :
    base + n ≤ memSize ∧ (w = true → c.protectLowMemory = true → 0x200 ≤ base) := by
  have hall := firstFailure_eq_none.mp h
  have hlast := (check_eq_none.mp (hall (n - 1) (by omega))).1
  have hfirst := (check_eq_none.mp (hall 0 hn)).2
  exact ⟨by unfold memSize; omega, by simpa using hfirst⟩

/-- What a guarded instruction can answer: its body when no address fails, else a raised fault at the first failure. -/
theorem guarded_next {i : Instr} {w : Bool} {base n : Nat} {s body t : State} (h : guarded i w base n s body = .next t) :
    (firstFailure s.cfg w base n = none ∧ t = body) ∨
      ∃ code a, firstFailure s.cfg w base n = some (code, a) ∧
        t = { s with fault := some { code := code, p := s.pc, op := some (encode i), addr := some a } } := by
  unfold guarded at h
  split at h
  · rename_i code a hff
    exact .inr ⟨code, a, hff, by simpa [raise] using h.symm⟩
  · rename_i hff
    exact .inl ⟨hff, by simpa using h.symm⟩

theorem guarded_of_none {i : Instr} {w : Bool} {base n : Nat} {s body : State} (h : firstFailure s.cfg w base n = none) :
    guarded i w base n s body = .next body := by simp [guarded, h]

theorem guarded_of_some {i : Instr} {w : Bool} {base n : Nat} {s body : State} {code : FaultCode} {a : Nat}
    (h : firstFailure s.cfg w base n = some (code, a)) :
    guarded i w base n s body = raise code (some (encode i)) (some a) s := by simp [guarded, h]

/-- A raised fault, in the claims' terms. -/
theorem raise_raises (code : FaultCode) (op : Option Word) (addr : Option Nat) (s : State) :
    Raises (raise code op addr s) s code op addr := by
  refine ⟨_, rfl, rfl, rfl, fun p hp => ?_⟩
  cases p <;> first | exact absurd (List.mem_singleton.mpr rfl) hp | rfl | exact fun _ => rfl

/-- What every address reads after a run of bytes is stored, in the terms of the statements. -/
theorem State.readByte_writeBytes_eq_byteUnder (s : State) (base : Nat) (bs : List Byte) (a : Nat) :
    (s.writeBytes base bs).readByte a = s.byteUnder base bs a := State.readByte_writeBytes s base bs a

end Sys2Proof.Machine
end

