-- ==== Sys2Proof/Laws/Display.lean ====
section
/-! SUPPORT. The display and the sprite compositor: cells after a toggle, after a run of toggles, and the cells a sprite names
(spec/44_display.md R202, R203). -/

namespace Sys2Proof.Machine

/-- Two displays with the same cells are the same display. -/
theorem Display.ext_cells {d e : Display} (h : ∀ x y, Display.cell d x y = Display.cell e x y) : d = e := by
  refine Vector.ext fun j hj => Vector.ext fun k hk => ?_
  exact h ⟨k, hk⟩ ⟨j, hj⟩

@[simp] theorem Display.cell_clear (x : Fin 64) (y : Fin 32) : Display.cell Display.clear x y = false := by
  simp [Display.cell, Display.clear]

theorem Display.cell_toggle (d : Display) (x px : Fin 64) (y py : Fin 32) :
    Display.cell (Display.toggle d x y) px py =
      if (px, py) = (x, y) then !Display.cell d px py else Display.cell d px py := by
  by_cases hy : py = y
  · subst hy
    by_cases hx : px = x
    · subst hx
      simp [Display.cell, Display.toggle]
    · have hne : x.val ≠ px.val := fun h => hx (Fin.ext h.symm)
      simp [Display.cell, Display.toggle, hx, hne]
  · have hne : y.val ≠ py.val := fun h => hy (Fin.ext h.symm)
    simp [Display.cell, Display.toggle, hy, hne]

/-- The display after distinct cells are toggled one after another: each named cell flipped, every other left alone. -/
theorem composite_cell {cells : List (Fin 64 × Fin 32)} (h : cells.Nodup) (d : Display) (hit : Bool) (px : Fin 64) (py : Fin 32) :
    Display.cell (composite cells (d, hit)).1 px py =
      if (px, py) ∈ cells then !Display.cell d px py else Display.cell d px py := by
  induction cells generalizing d hit with
  | nil => simp [composite]
  | cons p rest ih =>
    obtain ⟨x, y⟩ := p
    obtain ⟨hnotin, hrest⟩ := List.nodup_cons.mp h
    rw [composite, ih hrest, Display.cell_toggle]
    by_cases hp : (px, py) = (x, y)
    · rw [hp]; simp [hnotin]
    · simp [hp]

/-- The collision flag after distinct cells are toggled: it was set, or a named cell was on. -/
theorem composite_hit {cells : List (Fin 64 × Fin 32)} (h : cells.Nodup) (d : Display) (hit : Bool) :
    (composite cells (d, hit)).2 = true ↔ hit = true ∨ ∃ p ∈ cells, Display.cell d p.1 p.2 = true := by
  induction cells generalizing d hit with
  | nil => simp [composite]
  | cons p rest ih =>
    obtain ⟨x, y⟩ := p
    obtain ⟨hnotin, hrest⟩ := List.nodup_cons.mp h
    have hsame : ∀ q ∈ rest, Display.cell (Display.toggle d x y) q.1 q.2 = Display.cell d q.1 q.2 := by
      rintro ⟨qx, qy⟩ hq
      rw [Display.cell_toggle, if_neg]
      rintro heq
      exact hnotin (heq ▸ hq)
    rw [composite, ih hrest]
    simp only [Bool.or_eq_true, List.mem_cons, exists_eq_or_imp, or_assoc]
    constructor
    · rintro (h | h | ⟨q, hq, hc⟩)
      · exact .inl h
      · exact .inr (.inl h)
      · exact .inr (.inr ⟨q, hq, hsame q hq ▸ hc⟩)
    · rintro (h | h | ⟨q, hq, hc⟩)
      · exact .inl h
      · exact .inr (.inl h)
      · exact .inr (.inr ⟨q, hq, (hsame q hq).symm ▸ hc⟩)

/-! ### The cells of a sprite -/

theorem mem_rowCells {x0 y : Nat} {b : Byte} {px : Fin 64} {py : Fin 32} :
    (px, py) ∈ rowCells x0 y b ↔ ∃ c, c < 8 ∧ b.getLsbD (7 - c) = true ∧ px.val = (x0 + c) % 64 ∧ py.val = y % 32 := by
  simp only [rowCells, List.mem_map, List.mem_filter, List.mem_range, spritePixel, Prod.mk.injEq, Fin.ext_iff, Fin.val_ofNat]
  constructor
  · rintro ⟨c, ⟨hc, hb⟩, hx, hy⟩
    exact ⟨c, hc, hb, hx.symm, hy.symm⟩
  · rintro ⟨c, hc, hb, hx, hy⟩
    exact ⟨c, ⟨hc, hb⟩, hx.symm, hy.symm⟩

theorem mem_spriteCells {x0 y0 : Nat} {bs : List Byte} {px : Fin 64} {py : Fin 32} :
    (px, py) ∈ spriteCells x0 y0 bs ↔
      ∃ (r c : Nat) (h : r < bs.length), c < 8 ∧ bs[r].getLsbD (7 - c) = true ∧ px.val = (x0 + c) % 64 ∧
        py.val = (y0 + r) % 32 := by
  induction bs generalizing y0 with
  | nil => simp [spriteCells]
  | cons b rest ih =>
    rw [spriteCells, List.mem_append, mem_rowCells, ih]
    constructor
    · rintro (⟨c, hc, hb, hx, hy⟩ | ⟨r, c, hr, hc, hb, hx, hy⟩)
      · exact ⟨0, c, Nat.zero_lt_succ _, hc, hb, hx, hy⟩
      · exact ⟨r + 1, c, Nat.succ_lt_succ hr, hc, hb, hx, by rw [hy]; congr 1; omega⟩
    · rintro ⟨r, c, hr, hc, hb, hx, hy⟩
      cases r with
      | zero => exact .inl ⟨c, hc, hb, hx, hy⟩
      | succ r => exact .inr ⟨r, c, Nat.lt_of_succ_lt_succ hr, hc, hb, hx, by rw [hy]; congr 1; omega⟩

theorem rowCells_nodup (x0 y : Nat) (b : Byte) : (rowCells x0 y b).Nodup := by
  refine List.Nodup.map_on ?_ (List.nodup_range.filter _)
  intro c hc c' hc' heq
  simp only [List.mem_filter, List.mem_range] at hc hc'
  have h := congrArg (fun p : Fin 64 × Fin 32 => p.1.val) heq
  simp only [Fin.val_ofNat] at h
  omega

/-- A sprite of at most 32 rows names no cell twice (R203). -/
theorem spriteCells_nodup (x0 y0 : Nat) (bs : List Byte) (h : bs.length ≤ 32) : (spriteCells x0 y0 bs).Nodup := by
  induction bs generalizing y0 with
  | nil => exact List.nodup_nil
  | cons b rest ih =>
    simp only [List.length_cons] at h
    refine List.nodup_append.mpr ⟨rowCells_nodup x0 y0 b, ih (y0 + 1) (by omega), ?_⟩
    rintro ⟨px, py⟩ h1 ⟨qx, qy⟩ h2 heq
    cases heq
    obtain ⟨-, -, -, -, hy⟩ := mem_rowCells.mp h1
    obtain ⟨r, -, hr, -, -, -, hy'⟩ := mem_spriteCells.mp h2
    omega

/-! ### A whole draw -/

/-- The cells a draw toggles. -/
def State.drawnCells (s : State) (x y n : Nibble) : List (Fin 64 × Fin 32) :=
  spriteCells ((s.reg x).toNat % 64) ((s.reg y).toNat % 32) (s.readBytes s.base n.toNat)

theorem State.drawnCells_nodup (s : State) (x y n : Nibble) : (s.drawnCells x y n).Nodup := by
  have := n.isLt
  exact spriteCells_nodup _ _ _ (by rw [State.length_readBytes]; omega)

/-- The cells a draw toggles are those the sprite covers. -/
theorem State.mem_drawnCells {s : State} {x y n : Nibble} {px : Fin 64} {py : Fin 32} :
    (px, py) ∈ s.drawnCells x y n ↔ SpriteCovers s x y n px py := by
  simp only [State.drawnCells, mem_spriteCells, State.length_readBytes, State.getElem_readBytes, SpriteCovers, State.base]
  constructor
  · rintro ⟨r, c, hr, rest⟩
    exact ⟨r, c, hr, rest⟩
  · rintro ⟨r, c, hr, rest⟩
    exact ⟨r, c, hr, rest⟩

open Classical in
/-- The display after a draw: the covered cells flipped. -/
theorem State.drawn_cell (s : State) (x y n : Nibble) (px : Fin 64) (py : Fin 32) :
    Display.cell (s.drawn x y n).1 px py =
      if SpriteCovers s x y n px py then !Display.cell s.disp px py else Display.cell s.disp px py := by
  have h := composite_cell (s.drawnCells_nodup x y n) s.disp false px py
  simp only [State.mem_drawnCells] at h
  exact h

/-- The collision flag of a draw: a covered cell was on. -/
theorem State.drawn_hit (s : State) (x y n : Nibble) :
    (s.drawn x y n).2 = true ↔ ∃ px py, SpriteCovers s x y n px py ∧ Display.cell s.disp px py = true := by
  have h := composite_hit (s.drawnCells_nodup x y n) s.disp false
  refine Iff.trans h ?_
  simp only [Bool.false_eq_true, false_or]
  constructor
  · rintro ⟨⟨px, py⟩, hp, hc⟩
    exact ⟨px, py, State.mem_drawnCells.mp hp, hc⟩
  · rintro ⟨px, py, hp, hc⟩
    exact ⟨(px, py), State.mem_drawnCells.mpr hp, hc⟩

end Sys2Proof.Machine
end

