-- ==== Sys2Proof/Laws/Encoding.lean ====
section
/-! SUPPORT. The fields of a packed word, and a word put together from its fields. -/

namespace Sys2Proof

/-! ### Fields as arithmetic -/

theorem opT_toNat (op : Word) : (opT op).toNat = op.toNat / 4096 := by
  have := op.isLt
  simp only [opT, BitVec.extractLsb'_toNat, Nat.shiftRight_eq_div_pow]
  omega

theorem opX_toNat (op : Word) : (opX op).toNat = op.toNat / 256 % 16 := by
  simp [opX, BitVec.extractLsb'_toNat, Nat.shiftRight_eq_div_pow]

theorem opY_toNat (op : Word) : (opY op).toNat = op.toNat / 16 % 16 := by
  simp [opY, BitVec.extractLsb'_toNat, Nat.shiftRight_eq_div_pow]

theorem opN_toNat (op : Word) : (opN op).toNat = op.toNat % 16 := by
  simp [opN, BitVec.extractLsb'_toNat]

theorem opKK_toNat (op : Word) : (opKK op).toNat = op.toNat % 256 := by
  simp [opKK, BitVec.extractLsb'_toNat]

theorem opNNN_toNat (op : Word) : (opNNN op).toNat = op.toNat % 4096 := by
  simp [opNNN, BitVec.extractLsb'_toNat]

/-! ### Packed words as arithmetic -/

theorem append_toNat_mul {w v : Nat} (x : BitVec w) (y : BitVec v) : (x ++ y).toNat = x.toNat * 2 ^ v + y.toNat := by
  rw [BitVec.toNat_append, Nat.shiftLeft_eq, Nat.mul_comm, Nat.two_pow_add_eq_or_of_lt y.isLt]

theorem packNNN_toNat (t : Nibble) (nnn : Addr12) : (packNNN t nnn).toNat = t.toNat * 4096 + nnn.toNat :=
  append_toNat_mul t nnn

theorem packXKK_toNat (t x : Nibble) (kk : Byte) : (packXKK t x kk).toNat = t.toNat * 4096 + (x.toNat * 256 + kk.toNat) := by
  have h := append_toNat_mul t (x ++ kk)
  rw [append_toNat_mul x kk] at h
  exact h

theorem packXYN_toNat (t x y n : Nibble) :
    (packXYN t x y n).toNat = t.toNat * 4096 + (x.toNat * 256 + (y.toNat * 16 + n.toNat)) := by
  have h := append_toNat_mul t (x ++ (y ++ n))
  rw [append_toNat_mul x (y ++ n), append_toNat_mul y n] at h
  exact h

/-! ### The fields of a packed word -/

@[simp] theorem opT_packNNN (t : Nibble) (nnn : Addr12) : opT (packNNN t nnn) = t := by
  apply BitVec.eq_of_toNat_eq; have := nnn.isLt; rw [opT_toNat, packNNN_toNat]; omega
@[simp] theorem opNNN_packNNN (t : Nibble) (nnn : Addr12) : opNNN (packNNN t nnn) = nnn := by
  apply BitVec.eq_of_toNat_eq; have := nnn.isLt; rw [opNNN_toNat, packNNN_toNat]; omega

@[simp] theorem opT_packXKK (t x : Nibble) (kk : Byte) : opT (packXKK t x kk) = t := by
  apply BitVec.eq_of_toNat_eq; have := x.isLt; have := kk.isLt; rw [opT_toNat, packXKK_toNat]; omega
@[simp] theorem opX_packXKK (t x : Nibble) (kk : Byte) : opX (packXKK t x kk) = x := by
  apply BitVec.eq_of_toNat_eq; have := x.isLt; have := kk.isLt; rw [opX_toNat, packXKK_toNat]; omega
@[simp] theorem opKK_packXKK (t x : Nibble) (kk : Byte) : opKK (packXKK t x kk) = kk := by
  apply BitVec.eq_of_toNat_eq; have := kk.isLt; rw [opKK_toNat, packXKK_toNat]; omega

@[simp] theorem opT_packXYN (t x y n : Nibble) : opT (packXYN t x y n) = t := by
  apply BitVec.eq_of_toNat_eq; have := x.isLt; have := y.isLt; have := n.isLt; rw [opT_toNat, packXYN_toNat]; omega
@[simp] theorem opX_packXYN (t x y n : Nibble) : opX (packXYN t x y n) = x := by
  apply BitVec.eq_of_toNat_eq; have := x.isLt; have := y.isLt; have := n.isLt; rw [opX_toNat, packXYN_toNat]; omega
@[simp] theorem opY_packXYN (t x y n : Nibble) : opY (packXYN t x y n) = y := by
  apply BitVec.eq_of_toNat_eq; have := y.isLt; have := n.isLt; rw [opY_toNat, packXYN_toNat]; omega
@[simp] theorem opN_packXYN (t x y n : Nibble) : opN (packXYN t x y n) = n := by
  apply BitVec.eq_of_toNat_eq; have := n.isLt; rw [opN_toNat, packXYN_toNat]; omega

/-! ### A word from its fields -/

theorem packNNN_fields (op : Word) : packNNN (opT op) (opNNN op) = op := by
  apply BitVec.eq_of_toNat_eq; rw [packNNN_toNat, opT_toNat, opNNN_toNat]; omega
theorem packXKK_fields (op : Word) : packXKK (opT op) (opX op) (opKK op) = op := by
  apply BitVec.eq_of_toNat_eq; rw [packXKK_toNat, opT_toNat, opX_toNat, opKK_toNat]; omega
theorem packXYN_fields (op : Word) : packXYN (opT op) (opX op) (opY op) (opN op) = op := by
  apply BitVec.eq_of_toNat_eq; rw [packXYN_toNat, opT_toNat, opX_toNat, opY_toNat, opN_toNat]; omega

/-- A word is its two bytes, high byte first. -/
@[simp] theorem wordOfBytes_hi_lo (op : Word) : wordOfBytes (hiByte op) (loByte op) = op := by
  apply BitVec.eq_of_toNat_eq
  have h := append_toNat_mul (hiByte op) (loByte op)
  have h1 : (hiByte op).toNat = op.toNat / 256 := by
    have := op.isLt
    simp only [hiByte, BitVec.extractLsb'_toNat, Nat.shiftRight_eq_div_pow]
    omega
  have h2 : (loByte op).toNat = op.toNat % 256 := by simp [loByte, BitVec.extractLsb'_toNat]
  refine h.trans ?_
  omega

end Sys2Proof
end

