-- ==== Sys2Proof/Laws/Ops.lean ====
section
/-! SUPPORT. One lemma for each shared operation over registers, stack, timers, keys and the arithmetic: what it answers. -/

namespace Sys2Proof.Machine

/-! ### The stack -/

/-- A push that succeeds: SP was below 16, the slot at SP takes the word, and SP goes up by one. -/
theorem State.push_eq_some {s t : State} {w : Word} :
    s.push w = some t ↔ ∃ h : s.sp.val < 16,
      t = { s with stack := s.stack.set s.sp.val w h, sp := ⟨s.sp.val + 1, by omega⟩ } := by
  unfold State.push
  split
  · rename_i h; simp [h, eq_comm]
  · rename_i h; simp [h]

theorem State.push_eq_none {s : State} {w : Word} : s.push w = none ↔ s.sp.val = 16 := by
  have := s.sp.isLt
  unfold State.push
  split <;> simp <;> omega

/-- A pop that succeeds: SP was above 0 and goes down by one, and the word is the slot SP then names. -/
theorem State.pop_eq_some {s t : State} {w : Word} :
    s.pop = some (w, t) ↔ ∃ h : 0 < s.sp.val,
      w = s.stack[s.sp.val - 1]'(by omega) ∧ t = { s with sp := ⟨s.sp.val - 1, by omega⟩ } := by
  unfold State.pop
  split
  · rename_i h; simp [h, eq_comm]
  · rename_i h; simp [h]

theorem State.pop_eq_none {s : State} : s.pop = none ↔ s.sp.val = 0 := by
  unfold State.pop
  split <;> simp <;> omega

/-! ### Operands -/

theorem zext16_toNat (nnn : Addr12) : (zext16 nnn).toNat = nnn.toNat := by
  have := nnn.isLt
  simp only [zext16, BitVec.toNat_setWidth]
  omega

theorem lowNibble_toNat (b : Byte) : (lowNibble b).toNat = b.toNat % 16 := by revert b; decide

theorem glyphAddress_toNat (c : Config) (d : Nibble) : (glyphAddress c d).toNat = c.fontBase.val + 5 * d.toNat := by
  have := c.fontBase.isLt
  have := d.isLt
  simp only [glyphAddress, BitVec.toNat_ofNat]
  omega

theorem State.indexPlus_toNat (s : State) (n : Nat) : (s.indexPlus n).toNat = (s.i.toNat + n) % 65536 := by
  simp [State.indexPlus, State.base]

@[simp] theorem State.length_blockRegs (s : State) (x : Nibble) : (s.blockRegs x).length = x.toNat + 1 := by
  have := x.isLt
  simp [State.blockRegs, blockCount]
  omega

theorem State.getElem_blockRegs (s : State) (x k : Nibble) (h : k.toNat < (s.blockRegs x).length) :
    (s.blockRegs x)[k.toNat] = s.reg k := by simp [State.blockRegs, State.reg]

theorem State.getElem_loadedRegs (s : State) (x k : Nibble) :
    (s.loadedRegs x)[k.toNat]'k.isLt = if k.toNat ≤ x.toNat then s.readByte (s.i.toNat + k.toNat) else s.reg k := by
  simp only [State.loadedRegs, Vector.getElem_mapIdx, blockCount, State.reg, State.base, Nat.lt_succ_iff]

@[simp] theorem length_bcdDigits (b : Byte) : (bcdDigits b).length = 3 := rfl

/-! ### Arithmetic and flags (spec/42_alu.md R162) -/

theorem sumByte_toNat (x y : Byte) : (sumByte x y).toNat = (x.toNat + y.toNat) % 256 := by simp [sumByte]

theorem differenceByte_toInt (x y : Byte) : ((differenceByte x y).toNat : Int) = ((x.toNat : Int) - y.toNat) % 256 := by
  simp only [differenceByte, BitVec.toNat_ofInt]
  omega

theorem shiftRightByte_toNat (b : Byte) : (shiftRightByte b).toNat = b.toNat / 2 := by
  have := b.isLt
  simp only [shiftRightByte, BitVec.toNat_ofNat]
  omega

theorem shiftLeftByte_toNat (b : Byte) : (shiftLeftByte b).toNat = b.toNat * 2 % 256 := by simp [shiftLeftByte]

theorem flagByte_shiftRight_toNat (b : Byte) : (flagByte (shiftRightFlag b)).toNat = b.toNat % 2 := by revert b; decide

theorem flagByte_shiftLeft_toNat (b : Byte) : (flagByte (shiftLeftFlag b)).toNat = b.toNat / 128 := by revert b; decide

theorem flagByte_eq_one {c : Bool} : flagByte c = 1 ↔ c = true := by cases c <;> decide

/-! ### Keys and timers -/

/-- The least held key: held, and no key below it is held. -/
theorem State.leastHeldKey_eq_some {s : State} {k : Nat} :
    s.leastHeldKey = some k ↔
      ∃ h : k < 16, s.keyHeld (BitVec.ofNatLT k h) = true ∧ ∀ j : Nibble, j.toNat < k → s.keyHeld j = false := by
  simp only [State.leastHeldKey, List.findIdx?_eq_some_iff_getElem, State.keyHeld, Vector.length_toList,
    Vector.getElem_toList, id_eq, BitVec.toNat_ofNatLT]
  refine exists_congr fun h => and_congr_right fun _ => ⟨fun hall j hj => ?_, fun hall j hj => ?_⟩
  · simpa using hall j.toNat hj
  · simpa using hall (BitVec.ofNatLT j (show j < 2 ^ 4 by omega)) (by simpa using hj)

theorem State.leastHeldKey_eq_none {s : State} : s.leastHeldKey = none ↔ ∀ k, s.keyHeld k = false := by
  simp only [State.leastHeldKey, List.findIdx?_eq_none_iff, State.keyHeld, id_eq]
  constructor
  · intro h k
    exact h _ (by simp)
  · intro h b hb
    obtain ⟨j, hj, rfl⟩ := List.getElem_of_mem hb
    simp only [Vector.length_toList] at hj
    simpa using h (BitVec.ofNatLT j (show j < 2 ^ 4 by omega))

theorem countDown_toNat (b : Byte) : (countDown b).toNat = b.toNat - 1 := by revert b; decide

end Sys2Proof.Machine
end

