-- ==== Sys2Proof/Laws/Step.lean ====
section
/-! SUPPORT. What a fetch, a Cycle and a step can do, said once. -/

namespace Sys2Proof.Machine

/-! ### Fetch -/

theorem State.fetch_of_le {s : State} (h : s.pc.toNat ≤ 0xFFE) :
    s.fetch = .word (wordOfBytes (s.readByte s.pc.toNat) (s.readByte (s.pc.toNat + 1))) := by
  unfold State.fetch; rw [if_neg (by omega)]

theorem State.fetch_of_gt {s : State} (h : 0xFFE < s.pc.toNat) :
    s.fetch = .outOfRange (if s.pc.toNat = 0xFFF then 0x1000 else s.pc.toNat) := by
  unfold State.fetch; rw [if_pos h]; congr 1; split <;> split <;> omega

/-- A fetch that answers a word is in range, and the word is the two bytes at P. -/
theorem State.fetch_eq_word {s : State} {op : Word} (h : s.fetch = .word op) :
    s.pc.toNat ≤ 0xFFE ∧ op = wordOfBytes (s.readByte s.pc.toNat) (s.readByte (s.pc.toNat + 1)) := by
  unfold State.fetch at h
  split at h
  · cases h
  · exact ⟨by omega, by cases h; rfl⟩

/-- A fetch that is out of range has its PC above 0xFFE. -/
theorem State.fetch_eq_outOfRange {s : State} {a : Nat} (h : s.fetch = .outOfRange a) : 0xFFE < s.pc.toNat := by
  unfold State.fetch at h
  split at h
  · assumption
  · cases h

@[simp] theorem State.fetch_closeLoad (s : State) : s.closeLoad.fetch = s.fetch := rfl

/-! ### The Cycle -/

theorem cycle_of_fault {s : State} {r : FaultRecord} (h : s.fault = some r) : cycle s = .next s := by simp [cycle, h]

theorem cycle_of_word {s : State} {op : Word} (h : s.fault = none) (hf : s.fetch = .word op) :
    cycle s = execWord op s.closeLoad := by simp [cycle, h, hf]

theorem cycle_of_outOfRange {s : State} {a : Nat} (h : s.fault = none) (hf : s.fetch = .outOfRange a) :
    cycle s = raise .addressOutOfRange none (some a) s.closeLoad := by simp [cycle, h, hf]

/-- Everything a Cycle can do. -/
theorem cycle_cases {s : State} {o : Result} (h : cycle s = o) :
    (s.fault ≠ none ∧ o = .next s) ∨
      (s.fault = none ∧ ∃ a, s.fetch = .outOfRange a ∧ o = raise .addressOutOfRange none (some a) s.closeLoad) ∨
      (s.fault = none ∧ ∃ op, s.fetch = .word op ∧ o = execWord op s.closeLoad) := by
  cases hf : s.fault with
  | some r => exact .inl ⟨by simp, by rw [← h, cycle_of_fault hf]⟩
  | none =>
    cases hw : s.fetch with
    | outOfRange a => exact .inr (.inl ⟨rfl, a, rfl, by rw [← h, cycle_of_outOfRange hf hw]⟩)
    | word op => exact .inr (.inr ⟨rfl, op, rfl, by rw [← h, cycle_of_word hf hw]⟩)

/-- Everything the execution of a word can do. -/
theorem execWord_cases (op : Word) (s : State) :
    (∃ i, decode op = .instr i ∧ execWord op s = exec i s) ∨
      (∃ w, decode op = .unknown w ∧ execWord op s = execUnknown w s) := by
  cases h : decode op with
  | instr i => exact .inl ⟨i, rfl, by simp [execWord, h]⟩
  | unknown w => exact .inr ⟨w, rfl, by simp [execWord, h]⟩

/-! ### The step -/

theorem step_of_empty {s : State} (h : s.env.ops = []) : step s = cycle s := by
  simp [step, State.nextOp, h, hostOp]

theorem step_of_cons {s : State} {op : HostOp} {rest : List HostOp} (h : s.env.ops = op :: rest) :
    step s = hostOp op (s.setEnv { s.env with ops := rest }) := by
  simp [step, State.nextOp, h]

/-- Every step is a Cycle of a machine with an empty queue, or one host operation with the rest left queued. -/
theorem step_cases (s : State) :
    (s.env.ops = [] ∧ step s = cycle s) ∨
      ∃ op rest, s.env.ops = op :: rest ∧ step s = hostOp op (s.setEnv { s.env with ops := rest }) := by
  cases h : s.env.ops with
  | nil => exact .inl ⟨rfl, step_of_empty h⟩
  | cons op rest => exact .inr ⟨op, rest, rfl, step_of_cons h⟩

/-! ### A word placed at the PC -/

theorem State.readyToFetch_pc_le (s : State) : s.readyToFetch.pc.toNat ≤ 0xFFE := by
  unfold State.readyToFetch
  dsimp only
  split <;> simp_all

theorem State.fetch_placeWord {s : State} (h : s.pc.toNat ≤ 0xFFE) (op : Word) : (s.placeWord op).fetch = .word op := by
  have hpc : (s.placeWord op).pc = s.pc := State.writeBytes_pc ..
  rw [State.fetch_of_le (by rw [hpc]; exact h), hpc]
  simp only [State.placeWord, State.readByte_writeBytes]
  simp

/-- The step after `withFetchWord` executes exactly the word placed. -/
theorem step_withFetchWord (s : State) (nbits w : Nat) :
    step (s.withFetchWord nbits w) =
      execWord (BitVec.ofNat 16 (w % 2 ^ nbits)) (s.withFetchWord nbits w).closeLoad := by
  have hops : (s.withFetchWord nbits w).env.ops = [] := by
    simp [State.withFetchWord, State.placeWord, State.readyToFetch]
  have hfault : (s.withFetchWord nbits w).fault = none := by
    simp [State.withFetchWord, State.placeWord, State.readyToFetch]
  rw [step_of_empty hops, cycle_of_word hfault]
  exact State.fetch_placeWord s.readyToFetch_pc_le _

end Sys2Proof.Machine
end

