-- ==== Sys2Proof/Laws/Exec.lean ====
section
/-! SUPPORT. What the execution of an instruction can answer, said once: it completes and leaves FAULT as it was, or it raises a fault for
its own word.  It never stops (spec/60_exceptions.md R240). -/

namespace Sys2Proof.Machine

/-- The answer completes an instruction, leaving FAULT alone, or raises a fault for its word. -/
def CompletesOrRaises (i : Instr) (s : State) (r : Result) : Prop :=
  (∃ t, r = .next t ∧ t.fault = s.fault) ∨ ∃ code addr, r = raise code (some (encode i)) addr s

theorem completes {i : Instr} {s : State} (t : State) (h : t.fault = s.fault) : CompletesOrRaises i s (.next t) := .inl ⟨t, rfl, h⟩

theorem guarded_completesOrRaises {i : Instr} {w : Bool} {base n : Nat} {s body : State} (h : body.fault = s.fault) :
    CompletesOrRaises i s (guarded i w base n s body) := by
  unfold guarded
  split
  · exact .inr ⟨_, _, rfl⟩
  · exact completes body h

/-- Every instruction completes or raises a fault. -/
theorem exec_completesOrRaises (i : Instr) (s : State) : CompletesOrRaises i s (exec i s) := by
  cases i with
  | sys nnn =>
    simp only [exec, execSys]
    split
    · exact completes _ rfl
    · exact .inr ⟨_, _, rfl⟩
  | ret =>
    simp only [exec, execRet]
    split
    · rename_i h
      obtain ⟨_, -, rfl⟩ := State.pop_eq_some.mp h
      exact completes _ rfl
    · exact .inr ⟨_, _, rfl⟩
  | call nnn =>
    simp only [exec, execCall]
    split
    · rename_i h
      obtain ⟨_, rfl⟩ := State.push_eq_some.mp h
      exact completes _ rfl
    · exact .inr ⟨_, _, rfl⟩
  | ldVxK x =>
    simp only [exec, execLdVxK]
    split <;> exact completes _ rfl
  | orReg x y => exact completes _ (by simp)
  | andReg x y => exact completes _ (by simp)
  | xorReg x y => exact completes _ (by simp)
  | ldB x => exact guarded_completesOrRaises (by simp)
  | ldMemVx x => exact guarded_completesOrRaises (by simp)
  | ldVxMem x => exact guarded_completesOrRaises (by simp)
  | drw x y n => exact guarded_completesOrRaises (by simp)
  | _ => exact completes _ rfl

/-- Every `Unknown` word advances PC or raises UnknownOpcode. -/
theorem execUnknown_cases (op : Word) (s : State) :
    execUnknown op s = .next s.advance ∨ execUnknown op s = raise .unknownOpcode (some op) none s := by
  unfold execUnknown
  split
  · exact .inr rfl
  · exact .inl rfl

end Sys2Proof.Machine
end

