-- ==== Sys2Proof/Laws/PerInstr.lean ====
section
/-! SUPPORT. Facts about every instruction as syntax, one lemma per constructor.  Family `OpcodeFamily`: the top nibble of an instruction's
word is its family of the opcode map (spec/30_encoding.md R94). -/

namespace Sys2Proof

/-- The family of an instruction (R94). -/
def Instr.family : Instr → Nibble
  | .sys _ => 0x0
  | .cls => 0x0
  | .ret => 0x0
  | .jp _ => 0x1
  | .call _ => 0x2
  | .seImm _ _ => 0x3
  | .sneImm _ _ => 0x4
  | .seReg _ _ => 0x5
  | .ldImm _ _ => 0x6
  | .addImm _ _ => 0x7
  | .ldReg _ _ => 0x8
  | .orReg _ _ => 0x8
  | .andReg _ _ => 0x8
  | .xorReg _ _ => 0x8
  | .addReg _ _ => 0x8
  | .sub _ _ => 0x8
  | .shr _ _ => 0x8
  | .subn _ _ => 0x8
  | .shl _ _ => 0x8
  | .sneReg _ _ => 0x9
  | .ldI _ => 0xA
  | .jpV0 _ => 0xB
  | .rnd _ _ => 0xC
  | .drw _ _ _ => 0xD
  | .skp _ => 0xE
  | .sknp _ => 0xE
  | .ldVxDt _ => 0xF
  | .ldVxK _ => 0xF
  | .ldDtVx _ => 0xF
  | .ldStVx _ => 0xF
  | .addI _ => 0xF
  | .ldF _ => 0xF
  | .ldB _ => 0xF
  | .ldMemVx _ => 0xF
  | .ldVxMem _ => 0xF

namespace Laws.OpcodeFamily

/-- The word of the instruction lies in its family. -/
def Statement (i : Instr) : Prop := opT (encode i) = i.family

theorem sys (nnn : Addr12) : Statement (.sys nnn) := opT_packNNN ..
theorem cls : Statement .cls := by unfold Statement; decide
theorem ret : Statement .ret := by unfold Statement; decide
theorem jp (nnn : Addr12) : Statement (.jp nnn) := opT_packNNN ..
theorem call (nnn : Addr12) : Statement (.call nnn) := opT_packNNN ..
theorem seImm (x : Nibble) (kk : Byte) : Statement (.seImm x kk) := opT_packXKK ..
theorem sneImm (x : Nibble) (kk : Byte) : Statement (.sneImm x kk) := opT_packXKK ..
theorem seReg (x y : Nibble) : Statement (.seReg x y) := opT_packXYN ..
theorem ldImm (x : Nibble) (kk : Byte) : Statement (.ldImm x kk) := opT_packXKK ..
theorem addImm (x : Nibble) (kk : Byte) : Statement (.addImm x kk) := opT_packXKK ..
theorem ldReg (x y : Nibble) : Statement (.ldReg x y) := opT_packXYN ..
theorem orReg (x y : Nibble) : Statement (.orReg x y) := opT_packXYN ..
theorem andReg (x y : Nibble) : Statement (.andReg x y) := opT_packXYN ..
theorem xorReg (x y : Nibble) : Statement (.xorReg x y) := opT_packXYN ..
theorem addReg (x y : Nibble) : Statement (.addReg x y) := opT_packXYN ..
theorem sub (x y : Nibble) : Statement (.sub x y) := opT_packXYN ..
theorem shr (x y : Nibble) : Statement (.shr x y) := opT_packXYN ..
theorem subn (x y : Nibble) : Statement (.subn x y) := opT_packXYN ..
theorem shl (x y : Nibble) : Statement (.shl x y) := opT_packXYN ..
theorem sneReg (x y : Nibble) : Statement (.sneReg x y) := opT_packXYN ..
theorem ldI (nnn : Addr12) : Statement (.ldI nnn) := opT_packNNN ..
theorem jpV0 (nnn : Addr12) : Statement (.jpV0 nnn) := opT_packNNN ..
theorem rnd (x : Nibble) (kk : Byte) : Statement (.rnd x kk) := opT_packXKK ..
theorem drw (x y n : Nibble) : Statement (.drw x y n) := opT_packXYN ..
theorem skp (x : Nibble) : Statement (.skp x) := opT_packXKK ..
theorem sknp (x : Nibble) : Statement (.sknp x) := opT_packXKK ..
theorem ldVxDt (x : Nibble) : Statement (.ldVxDt x) := opT_packXKK ..
theorem ldVxK (x : Nibble) : Statement (.ldVxK x) := opT_packXKK ..
theorem ldDtVx (x : Nibble) : Statement (.ldDtVx x) := opT_packXKK ..
theorem ldStVx (x : Nibble) : Statement (.ldStVx x) := opT_packXKK ..
theorem addI (x : Nibble) : Statement (.addI x) := opT_packXKK ..
theorem ldF (x : Nibble) : Statement (.ldF x) := opT_packXKK ..
theorem ldB (x : Nibble) : Statement (.ldB x) := opT_packXKK ..
theorem ldMemVx (x : Nibble) : Statement (.ldMemVx x) := opT_packXKK ..
theorem ldVxMem (x : Nibble) : Statement (.ldVxMem x) := opT_packXKK ..

end Laws.OpcodeFamily

end Sys2Proof
end

