-- ==== Sys2Proof/Tests/Slice0.lean ====
section
/-! SUPPORT. The model's own tests: the checks of WellFormed, a word of every row written out from the table of
spec/30_encoding.md R95, steps with the expected results of spec/95_test_vectors.md, and for each statement with hypotheses a
witness that meets them all. -/

namespace Sys2Proof.Tests

open Sys2Proof.Machine

/-! ### WellFormed refuses the words of rows 2 and 3 as SYS (R95) -/

theorem test_wf_refuses_sys_0E0 : (Instr.sys 0x0E0).wf = false := by decide
theorem test_wf_refuses_sys_0EE : (Instr.sys 0x0EE).wf = false := by decide
theorem test_wf_takes_sys_0E1 : (Instr.sys 0x0E1).wf = true := by decide

/-! ### Decoding: one word of every row, its bytes written out from the pattern (R95) -/

/-- 0123 = SYS 0x123, row 1. -/
theorem test_decode_sys : decodeBytes 0x01 0x23 = .instr (.sys 0x123) := by decide
/-- 00E0, row 2. -/
theorem test_decode_cls : decodeBytes 0x00 0xE0 = .instr .cls := by decide
/-- 00EE, row 3. -/
theorem test_decode_ret : decodeBytes 0x00 0xEE = .instr .ret := by decide
/-- 1aaa, row 4. -/
theorem test_decode_jp : decodeBytes 0x1A 0xBC = .instr (.jp 0xABC) := by decide
/-- 2aaa, row 5. -/
theorem test_decode_call : decodeBytes 0x2F 0x01 = .instr (.call 0xF01) := by decide
/-- 3xkk, row 6. -/
theorem test_decode_seImm : decodeBytes 0x3A 0x42 = .instr (.seImm 0xA 0x42) := by decide
/-- 4xkk, row 7. -/
theorem test_decode_sneImm : decodeBytes 0x45 0xC3 = .instr (.sneImm 0x5 0xC3) := by decide
/-- 5xy0, row 8. -/
theorem test_decode_seReg : decodeBytes 0x51 0x20 = .instr (.seReg 0x1 0x2) := by decide
/-- 6xkk, row 9. -/
theorem test_decode_ldImm : decodeBytes 0x6A 0x5C = .instr (.ldImm 0xA 0x5C) := by decide
/-- 7xkk, row 10. -/
theorem test_decode_addImm : decodeBytes 0x7B 0x01 = .instr (.addImm 0xB 0x01) := by decide
/-- 8xy0, row 11. -/
theorem test_decode_ldReg : decodeBytes 0x81 0x20 = .instr (.ldReg 0x1 0x2) := by decide
/-- 8xy1, row 12. -/
theorem test_decode_orReg : decodeBytes 0x83 0x41 = .instr (.orReg 0x3 0x4) := by decide
/-- 8xy2, row 13. -/
theorem test_decode_andReg : decodeBytes 0x85 0x62 = .instr (.andReg 0x5 0x6) := by decide
/-- 8xy3, row 14. -/
theorem test_decode_xorReg : decodeBytes 0x87 0x83 = .instr (.xorReg 0x7 0x8) := by decide
/-- 8xy4, row 15. -/
theorem test_decode_addReg : decodeBytes 0x89 0xA4 = .instr (.addReg 0x9 0xA) := by decide
/-- 8xy5, row 16. -/
theorem test_decode_sub : decodeBytes 0x8B 0xC5 = .instr (.sub 0xB 0xC) := by decide
/-- 8xy6, row 17. -/
theorem test_decode_shr : decodeBytes 0x8D 0xE6 = .instr (.shr 0xD 0xE) := by decide
/-- 8xy7, row 18. -/
theorem test_decode_subn : decodeBytes 0x8F 0x17 = .instr (.subn 0xF 0x1) := by decide
/-- 8xyE, row 19. -/
theorem test_decode_shl : decodeBytes 0x82 0x3E = .instr (.shl 0x2 0x3) := by decide
/-- 9xy0, row 20. -/
theorem test_decode_sneReg : decodeBytes 0x91 0x20 = .instr (.sneReg 0x1 0x2) := by decide
/-- Aaaa, row 21. -/
theorem test_decode_ldI : decodeBytes 0xA1 0x23 = .instr (.ldI 0x123) := by decide
/-- Baaa, row 22. -/
theorem test_decode_jpV0 : decodeBytes 0xB3 0x10 = .instr (.jpV0 0x310) := by decide
/-- Cxkk, row 23. -/
theorem test_decode_rnd : decodeBytes 0xC3 0x0F = .instr (.rnd 0x3 0x0F) := by decide
/-- Dxyn, row 24. -/
theorem test_decode_drw : decodeBytes 0xD1 0x25 = .instr (.drw 0x1 0x2 0x5) := by decide
/-- Ex9E, row 25. -/
theorem test_decode_skp : decodeBytes 0xE3 0x9E = .instr (.skp 0x3) := by decide
/-- ExA1, row 26. -/
theorem test_decode_sknp : decodeBytes 0xE4 0xA1 = .instr (.sknp 0x4) := by decide
/-- Fx07, row 27. -/
theorem test_decode_ldVxDt : decodeBytes 0xF5 0x07 = .instr (.ldVxDt 0x5) := by decide
/-- Fx0A, row 28. -/
theorem test_decode_ldVxK : decodeBytes 0xF6 0x0A = .instr (.ldVxK 0x6) := by decide
/-- Fx15, row 29. -/
theorem test_decode_ldDtVx : decodeBytes 0xF7 0x15 = .instr (.ldDtVx 0x7) := by decide
/-- Fx18, row 30. -/
theorem test_decode_ldStVx : decodeBytes 0xF8 0x18 = .instr (.ldStVx 0x8) := by decide
/-- Fx1E, row 31. -/
theorem test_decode_addI : decodeBytes 0xF9 0x1E = .instr (.addI 0x9) := by decide
/-- Fx29, row 32. -/
theorem test_decode_ldF : decodeBytes 0xFA 0x29 = .instr (.ldF 0xA) := by decide
/-- Fx33, row 33. -/
theorem test_decode_ldB : decodeBytes 0xFB 0x33 = .instr (.ldB 0xB) := by decide
/-- Fx55, row 34. -/
theorem test_decode_ldMemVx : decodeBytes 0xFC 0x55 = .instr (.ldMemVx 0xC) := by decide
/-- Fx65, row 35. -/
theorem test_decode_ldVxMem : decodeBytes 0xFD 0x65 = .instr (.ldVxMem 0xD) := by decide

/-- One word of each group of R97. -/
theorem test_decode_unknown : decodeBytes 0x51 0x21 = .unknown 0x5121 ∧ decodeBytes 0x91 0x21 = .unknown 0x9121 ∧
    decodeBytes 0x81 0x28 = .unknown 0x8128 ∧ decodeBytes 0x81 0x2F = .unknown 0x812F ∧
    decodeBytes 0xE3 0xA0 = .unknown 0xE3A0 ∧ decodeBytes 0xFF 0xFF = .unknown 0xFFFF := by decide

/-- The word 0x0000 is SYS 0x000 (R123), and its neighbours 00DF, 00E1, 00ED and 00EF are SYS too. -/
theorem test_decode_sys_edges : decodeBytes 0x00 0x00 = .instr (.sys 0x000) ∧ decodeBytes 0x00 0xDF = .instr (.sys 0x0DF) ∧
    decodeBytes 0x00 0xE1 = .instr (.sys 0x0E1) ∧ decodeBytes 0x00 0xED = .instr (.sys 0x0ED) ∧
    decodeBytes 0x00 0xEF = .instr (.sys 0x0EF) ∧ decodeBytes 0x0F 0xFF = .instr (.sys 0xFFF) := by decide

/-- The host's question about a table word. -/
theorem test_decodeTableWord : decodeTableWord 16 0xD125 = some (.drw 1 2 5) ∧ decodeTableWord 16 0x8128 = none := by decide

/-! ### Steps: states and expected results of spec/95_test_vectors.md -/

/-- What is observed of a next state. -/
def obs {α : Type} (r : Result) (f : State → α) : Option α :=
  match r with
  | .next t => some (f t)
  | _ => none

/-- The state after construction with some registers set. -/
def regs (l : List (Nibble × Byte)) : State := l.foldl (fun s p => s.setReg p.1 p.2) State.reset

/-- The same with I set too. -/
def regsI (i : Word) (l : List (Nibble × Byte)) : State := (regs l).setI i

/-- The same state under another configuration. -/
def under (s : State) (f : Config → Config) : State := { s with cfg := f s.cfg }

/-- One CYCLE that runs a word at PC. -/
def run (s : State) (w : Nat) : Result := step (s.withFetchWord 16 w)

/-- The machine with host operations queued. -/
def queued (s : State) (l : List HostOp) : State := s.setEnv { s.env with ops := l }

/-- T1. -/
theorem test_sys_nop :
    obs (run State.reset 0x0123) (fun t => (t.pc, t.fault)) = some (0x202, none) := by decide

/-- T2. -/
theorem test_sys_halt :
    obs (run (under State.reset fun c => { c with sysPolicy := .halt }) 0x0123) (fun t => (t.pc, t.fault)) = some (0x200, some ⟨.sysUnsupported, 0x200, some 0x0123, some 0x123⟩) := by decide

/-- T4. -/
theorem test_ret_pops :
    obs (run { State.reset with sp := 2, stack := (State.reset.stack.set 0 0x204).set 1 0x31A } 0x00EE) (fun t => (t.sp, t.pc)) = some (1, 0x31A) := by decide

/-- T5. -/
theorem test_ret_underflow :
    obs (run State.reset 0x00EE) (fun t => (t.pc, t.fault)) = some (0x200, some ⟨.stackUnderflow, 0x200, some 0x00EE, none⟩) := by decide

/-- T6. -/
theorem test_jp :
    obs (run State.reset 0x1300) (fun t => t.pc) = some 0x300 := by decide

/-- T8. -/
theorem test_call_pushes :
    obs (run (State.reset.setPc 0x25E) 0x2400) (fun t => (t.sp, t.stack[0], t.pc)) = some (1, 0x260, 0x400) := by decide

/-- T9. -/
theorem test_call_overflow :
    obs (run { State.reset with sp := 16 } 0x2400) (fun t => (t.sp, t.pc, t.fault)) = some (16, 0x200, some ⟨.stackOverflow, 0x200, some 0x2400, none⟩) := by decide

/-- T12. -/
theorem test_jpV0_beyond :
    obs (run (regs [(0, 0xFF)]) 0xBFFF) (fun t => t.pc) = some 0x10FE := by decide

/-- T13. -/
theorem test_jpV0_ignores_vx :
    obs (run (regs [(0, 0x01), (3, 0x20)]) 0xB310) (fun t => t.pc) = some 0x311 := by decide

/-- T14. -/
theorem test_seImm_equal :
    obs (run (regs [(0xA, 0x42)]) 0x3A42) (fun t => t.pc) = some 0x204 := by decide

/-- T23. -/
theorem test_seImm_top :
    obs (run (State.reset.setPc 0xFFC) 0x3000) (fun t => t.pc) = some 0x1000 := by decide

/-- T17. -/
theorem test_sneImm_equal :
    obs (run (regs [(0xA, 0x42)]) 0x4A42) (fun t => t.pc) = some 0x202 := by decide

/-- T19. -/
theorem test_seReg_not_equal :
    obs (run (regs [(1, 7), (2, 8)]) 0x5120) (fun t => t.pc) = some 0x202 := by decide

/-- T20. -/
theorem test_seReg_same :
    obs (run State.reset 0x5330) (fun t => t.pc) = some 0x204 := by decide

/-- T21. -/
theorem test_sneReg_not_equal :
    obs (run (regs [(1, 7), (2, 8)]) 0x9120) (fun t => t.pc) = some 0x204 := by decide

/-- T25. -/
theorem test_ldImm_vf :
    obs (run State.reset 0x6F07) (fun t => (t.reg 0xF, t.pc)) = some (0x07, 0x202) := by decide

/-- T26. -/
theorem test_addImm_wraps :
    obs (run (regs [(0xA, 0xFF), (0xF, 0x55)]) 0x7A01) (fun t => (t.reg 0xA, t.reg 0xF)) = some (0x00, 0x55) := by decide

/-- T28. -/
theorem test_ldReg :
    obs (run (regs [(2, 0x9C)]) 0x8120) (fun t => (t.reg 1, t.reg 2)) = some (0x9C, 0x9C) := by decide

/-- T29. -/
theorem test_or_reset :
    obs (run (regs [(1, 0xF0), (2, 0x0F), (0xF, 1)]) 0x8121) (fun t => (t.reg 1, t.reg 0xF)) = some (0xFF, 0) := by decide

/-- T30. -/
theorem test_or_keeps :
    obs (run (under (regs [(1, 0xF0), (2, 0x0F), (0xF, 1)]) fun c => { c with logicVfReset := false }) 0x8121) (fun t => (t.reg 1, t.reg 0xF)) = some (0xFF, 1) := by decide

/-- T31. -/
theorem test_and :
    obs (run (regs [(1, 0xF3), (2, 0x3F), (0xF, 1)]) 0x8122) (fun t => (t.reg 1, t.reg 0xF)) = some (0x33, 0) := by decide

/-- T33. -/
theorem test_xor_into_vf :
    obs (run (regs [(0xF, 0x0F), (2, 0xF0)]) 0x8F23) (fun t => t.reg 0xF) = some 0 := by decide

/-- T32. -/
theorem test_xor :
    obs (run (regs [(1, 0xFF), (2, 0x0F)]) 0x8123) (fun t => t.reg 1) = some 0xF0 := by decide

/-- T36. -/
theorem test_add_256 :
    obs (run (regs [(1, 0xFF), (2, 0x01)]) 0x8124) (fun t => (t.reg 1, t.reg 0xF)) = some (0x00, 1) := by decide

/-- T38. -/
theorem test_add_into_vf :
    obs (run (regs [(0xF, 0xFF), (1, 0x01)]) 0x8F14) (fun t => t.reg 0xF) = some 1 := by decide

/-- T42. -/
theorem test_sub_equal :
    obs (run (regs [(1, 5), (2, 5)]) 0x8125) (fun t => (t.reg 1, t.reg 0xF)) = some (0, 1) := by decide

/-- T43. -/
theorem test_sub_borrow :
    obs (run (regs [(1, 3), (2, 5), (0xF, 1)]) 0x8125) (fun t => (t.reg 1, t.reg 0xF)) = some (0xFE, 0) := by decide

/-- T45. -/
theorem test_shr_vy :
    obs (run (regs [(1, 0xFF), (2, 3)]) 0x8126) (fun t => (t.reg 1, t.reg 0xF)) = some (1, 1) := by decide

/-- T46. -/
theorem test_shr_vx :
    obs (run (under (regs [(1, 0xFF), (2, 2)]) fun c => { c with shiftSource := .vx }) 0x8126) (fun t => (t.reg 1, t.reg 0xF)) = some (0x7F, 1) := by decide

/-- T49. -/
theorem test_subn :
    obs (run (regs [(1, 3), (2, 5)]) 0x8127) (fun t => (t.reg 1, t.reg 0xF)) = some (2, 1) := by decide

/-- T51. -/
theorem test_subn_borrow :
    obs (run (regs [(1, 5), (2, 3)]) 0x8127) (fun t => (t.reg 1, t.reg 0xF)) = some (0xFE, 0) := by decide

/-- T53. -/
theorem test_shl_vx :
    obs (run (under (regs [(1, 0x40), (2, 0x81), (0xF, 1)]) fun c => { c with shiftSource := .vx }) 0x812E) (fun t => (t.reg 1, t.reg 0xF)) = some (0x80, 0) := by decide

/-- T54. -/
theorem test_shl_into_vf :
    obs (run (regs [(2, 0x81)]) 0x8F2E) (fun t => t.reg 0xF) = some 1 := by decide

/-- T55. -/
theorem test_rnd_masks :
    obs (run (State.reset.setEnv { State.reset.env with rndIn := [0xAB, 0x11] }) 0xC30F) (fun t => (t.reg 3, t.env.rndIn)) = some (0x0B, [0x11]) := by decide

/-- T57. -/
theorem test_ldI :
    obs (run State.reset 0xA123) (fun t => (t.i, t.pc)) = some (0x123, 0x202) := by decide

/-- T58. -/
theorem test_addI_beyond :
    obs (run (regsI 0xFFF [(3, 2), (0xF, 7)]) 0xF31E) (fun t => (t.i, t.reg 0xF, t.fault)) = some (0x1001, 7, none) := by decide

/-- T59. -/
theorem test_addI_wraps :
    obs (run (regsI 0xFFFF [(3, 2)]) 0xF31E) (fun t => t.i) = some 0x0001 := by decide

/-- T61. -/
theorem test_ldF_low_nibble :
    obs (run (regs [(3, 0x1F)]) 0xF329) (fun t => t.i) = some 0x04B := by decide

/-- T62. -/
theorem test_ldB :
    obs (run (regsI 0x300 [(3, 0x9C)]) 0xF333) (fun t => (t.readByte 0x300, t.readByte 0x301, t.readByte 0x302, t.i)) = some (1, 5, 6, 0x300) := by decide

/-- T66. -/
theorem test_ldB_protected :
    obs (run (regsI 0x1FF [(3, 1)]) 0xF333) (fun t => (t.readByte 0x200, t.fault)) = some (0xF3, some ⟨.protectedWrite, 0x200, some 0xF333, some 0x1FF⟩) := by decide

/-- T71. -/
theorem test_store_top :
    obs (run (regsI 0xFFE [(0, 1), (1, 2)]) 0xF155) (fun t => (t.readByte 0xFFE, t.readByte 0xFFF, t.i)) = some (1, 2, 0x1000) := by decide

/-- T70, T117. -/
theorem test_store_past_top :
    obs (run (regsI 0xFFF [(0, 0x55)]) 0xF155) (fun t => (t.readByte 0xFFF, t.i, t.fault)) = some (0, 0xFFF, some ⟨.addressOutOfRange, 0x200, some 0xF155, some 0x1000⟩) := by decide

/-- T75. -/
theorem test_load_font :
    obs (run State.reset 0xF465) (fun t => (t.reg 0, t.reg 1, t.reg 4, t.reg 5, t.i)) = some (0xF0, 0x90, 0xF0, 0, 5) := by decide

/-- T76. -/
theorem test_load_past_top :
    obs (run (regsI 0xFFF []) 0xF165) (fun t => (t.i, t.fault)) = some (0xFFF, some ⟨.addressOutOfRange, 0x200, some 0xF165, some 0x1000⟩) := by decide

/-- T77. -/
theorem test_cls :
    obs (run (State.reset.setDisp (Display.toggle (Display.toggle State.reset.disp 3 4) 63 31)) 0x00E0) (fun t => (Display.cell t.disp 3 4, Display.cell t.disp 63 31, t.pc)) = some (false, false, 0x202) := by decide

/-- T82. -/
theorem test_drw_corner_wraps :
    obs (run ((regsI 0x300 [(1, 0x3F), (2, 0x1F)]).writeBytes 0x300 [0xC0, 0xC0]) 0xD122) (fun t => (Display.cell t.disp 63 31, Display.cell t.disp 0 0, Display.cell t.disp 63 0, Display.cell t.disp 0 31, Display.cell t.disp 1 0, t.reg 0xF)) = some (true, true, true, true, false, 0) := by decide

/-- T80. -/
theorem test_drw_overlap :
    obs (run (((regsI 0x300 []).setDisp (Display.toggle (Display.toggle State.reset.disp 1 0) 5 0)).writeBytes 0x300 [0xC0]) 0xD121) (fun t => (Display.cell t.disp 0 0, Display.cell t.disp 1 0, Display.cell t.disp 5 0, t.reg 0xF)) = some (true, false, true, 1) := by decide

/-- T90. -/
theorem test_skp_low_nibble :
    obs (run ((regs [(3, 0x15)]).setKey 5 true) 0xE39E) (fun t => t.pc) = some 0x204 := by decide

/-- T92. -/
theorem test_sknp_held :
    obs (run ((regs [(3, 0x05)]).setKey 5 true) 0xE3A1) (fun t => t.pc) = some 0x202 := by decide

/-- T93. -/
theorem test_key_wait :
    obs (run State.reset 0xF30A) (fun t => (t.pc, t.reg 3)) = some (0x200, 0) := by decide

/-- T94. -/
theorem test_key_least :
    obs (run ((State.reset.setKey 9 true).setKey 2 true) 0xF30A) (fun t => (t.pc, t.reg 3)) = some (0x202, 2) := by decide

/-- T96. -/
theorem test_read_dt :
    obs (run (State.reset.setDt 0x2A) 0xF307) (fun t => (t.reg 3, t.dt)) = some (0x2A, 0x2A) := by decide

/-- T97. -/
theorem test_set_dt :
    obs (run (regs [(3, 0x3C)]) 0xF315) (fun t => (t.dt, t.st)) = some (0x3C, 0) := by decide

/-- T98. -/
theorem test_set_st :
    obs (run (regs [(3, 0x02)]) 0xF318) (fun t => (t.st, t.dt, t.soundOut)) = some (2, 0, true) := by decide

/-- T99. -/
theorem test_unknown_halt :
    obs (run (under State.reset fun c => { c with unknownPolicy := some .halt }) 0x8128) (fun t => (t.pc, t.fault)) = some (0x200, some ⟨.unknownOpcode, 0x200, some 0x8128, none⟩) := by decide

/-- T100. -/
theorem test_unknown_skip :
    obs (run (under State.reset fun c => { c with unknownPolicy := some .skip }) 0x8128) (fun t => (t.pc, t.fault)) = some (0x202, none) := by decide

/-- T106. -/
theorem test_fetch_fff :
    obs (step (State.reset.setPc 0xFFF)) (fun t => (t.pc, t.fault)) = some (0xFFF, some ⟨.addressOutOfRange, 0xFFF, none, some 0x1000⟩) := by decide

/-- T109. -/
theorem test_fetch_odd :
    obs (run (State.reset.setPc 0x201) 0x6077) (fun t => (t.reg 0, t.pc)) = some (0x77, 0x203) := by decide

/-- T112. -/
theorem test_tick_while_faulted :
    obs (step (queued { State.reset with dt := 3, st := 1, fault := some ⟨.stackUnderflow, 0x200, some 0x00EE, none⟩ } [.tick])) (fun t => (t.dt, t.st, t.soundOut, t.fault.isSome)) = some (2, 0, false, true) := by decide

/-- T126. -/
theorem test_load_image :
    obs (step (queued State.reset [.load [0x12, 0x34, 0xAB]])) (fun t => (t.readByte 0x200, t.readByte 0x201, t.readByte 0x202, t.readByte 0x203, t.env.loadReply)) = some (0x12, 0x34, 0xAB, 0, some .ok) := by decide

/-- T128: an image of 3585 bytes changes nothing; T127: one of 3584 bytes is accepted. -/
theorem test_load_capacity (long full : List Byte) (hl : long.length = 3585) (hf : full.length = 3584) :
    (State.reset.load long).mem = [] ∧ (State.reset.load long).env.loadReply = some .capacityExceeded ∧
      (State.reset.load full).env.loadReply = some .ok := by
  refine ⟨?_, ?_, ?_⟩ <;> simp only [State.load, maxImage, memSize, progBase, hl, hf] <;> rfl

/-- A LOAD after the first CYCLE is outside the spec (R290). -/
theorem test_late_load_refused :
    (match step (queued { State.reset with env := { State.reset.env with loadOpen := false } } [.load []]) with
      | .refused .loadOutsideBoot => true
      | _ => false) = true := by decide

/-! ### Witnesses: for each statement with hypotheses, operands and a state that meet them all -/

theorem witness_DecodeOfEncodeIsTheInstruction : (Instr.sys 0x0E1).wf = true := by decide

theorem witness_EncodeOfDecodeIsTheWord : decode 0x6A5C = .instr (.ldImm 0xA 0x5C) := by decide

/-- A word for each pattern; the fields' lowest and highest values both occur. -/
theorem witness_PatternsDecodeWithTheirFields :
    (0x0000 / 4096 = 0x0 ∧ (0x0000#16 ≠ 0x00E0 ∧ 0x0000#16 ≠ 0x00EE)) ∧ 0x1FFF / 4096 = 0x1 ∧ 0x2000 / 4096 = 0x2 ∧
    0x3FFF / 4096 = 0x3 ∧ 0x4000 / 4096 = 0x4 ∧ (0x5FF0 / 4096 = 0x5 ∧ 0x5FF0 % 16 = 0) ∧ 0x6FFF / 4096 = 0x6 ∧
    0x7000 / 4096 = 0x7 ∧
    (∀ n ∈ [0x0, 0x1, 0x2, 0x3, 0x4, 0x5, 0x6, 0x7, 0xE], (0x8FF0 + n) / 4096 = 0x8 ∧ (0x8FF0 + n) % 16 = n) ∧
    (0x9000 / 4096 = 0x9 ∧ 0x9000 % 16 = 0) ∧ 0xAFFF / 4096 = 0xA ∧ 0xB000 / 4096 = 0xB ∧ 0xCFFF / 4096 = 0xC ∧
    0xD000 / 4096 = 0xD ∧ (∀ k ∈ [0x9E, 0xA1], (0xEF00 + k) / 4096 = 0xE ∧ (0xEF00 + k) % 256 = k) ∧
    (∀ k ∈ [0x07, 0x0A, 0x15, 0x18, 0x1E, 0x29, 0x33, 0x55, 0x65], (0xF000 + k) / 4096 = 0xF ∧ (0xF000 + k) % 256 = k) := by
  decide

/-- A machine at the last fetchable PC, with a word there. -/
def atTop : State := (State.reset.setPc 0xFFE).placeWord 0x1FFE

theorem witness_StepRunsTheDecodedInstruction : atTop.fault = none ∧ atTop.pc.toNat ≤ 0xFFE ∧
    decodeBytes (atTop.readByte atTop.pc.toNat) (atTop.readByte (atTop.pc.toNat + 1)) = .instr (.jp 0xFFE) ∧
    atTop.env.ops = [] := by decide

theorem witness_StepRunsTheDecodedInstruction_queued : (queued atTop [.cycle, .tick]).fault = none ∧
    (queued atTop [.cycle, .tick]).pc.toNat ≤ 0xFFE ∧
    decodeBytes ((queued atTop [.cycle, .tick]).readByte 0xFFE) ((queued atTop [.cycle, .tick]).readByte 0xFFF) =
      .instr (.jp 0xFFE) ∧
    (queued atTop [.cycle, .tick]).env.ops = .cycle :: [.tick] := by decide

theorem witness_FetchAboveTheTopFaults :
    (State.reset.setPc 0xFFF).fault = none ∧ 0xFFE < (State.reset.setPc 0xFFF).pc.toNat ∧
      (State.reset.setPc 0x10FE).fault = none ∧ 0xFFE < (State.reset.setPc 0x10FE).pc.toNat := by decide

/-- A machine at an `Unknown` word under a given policy. -/
def atUnknown (u : UnknownPolicy) : State := under (State.reset.placeWord 0x8128) fun c => { c with unknownPolicy := some u }

theorem witness_UnknownWordFollowsThePolicy (u : UnknownPolicy) :
    (atUnknown u).fault = none ∧ (atUnknown u).pc.toNat ≤ 0xFFE ∧
      decodeBytes ((atUnknown u).readByte (atUnknown u).pc.toNat) ((atUnknown u).readByte ((atUnknown u).pc.toNat + 1)) =
        .unknown 0x8128 ∧ (atUnknown u).cfg.unknownPolicy = some u := by cases u <;> decide

/-- The same where no policy is given. -/
theorem witness_UnknownWordFollowsThePolicy_notGiven :
    (State.reset.placeWord 0x8128).fault = none ∧ (State.reset.placeWord 0x8128).pc.toNat ≤ 0xFFE ∧
      decodeBytes ((State.reset.placeWord 0x8128).readByte 0x200) ((State.reset.placeWord 0x8128).readByte 0x201) =
        .unknown 0x8128 ∧ (State.reset.placeWord 0x8128).cfg.unknownPolicy = none := by decide

theorem witness_HaltRunWithoutFaultIsASkipRun :
    let s := queued (under State.reset fun c => { c with unknownPolicy := some .halt }) [.load [0x60, 0x05], .cycle]
    s.cfg.unknownPolicy = some .halt ∧ HostOp.construct ∉ s.env.ops ∧
      obs (Host.Core.run core 2 s) (fun t : State => (t.reg 0, t.fault)) = some (5, none) := by decide

/-- A machine with a fault latched, and a construction queued. -/
def faulted : State :=
  queued { State.reset with fault := some ⟨.stackUnderflow, 0x200, some 0x00EE, none⟩ } [.construct]

theorem witness_LatchedFaultIsSticky : faulted.fault = some ⟨.stackUnderflow, 0x200, some 0x00EE, none⟩ ∧
    obs (hostOp .construct faulted) (fun t => decide (t.fault ≠ some ⟨.stackUnderflow, 0x200, some 0x00EE, none⟩)) =
      some true := by decide

theorem witness_StepPerformsTheQueuedOperation : State.reset.env.ops = [] ∧ faulted.env.ops = .construct :: [] := by decide

theorem witness_RaisedFaultIsPrecise : (State.reset.placeWord 0x00EE).fault = none ∧
    obs (step (State.reset.placeWord 0x00EE)) (fun t => t.fault) = some (some ⟨.stackUnderflow, 0x200, some 0x00EE, none⟩) ∧
    obs (step (State.reset.setPc 0x1000)) (fun t => t.fault.isSome) = some true := by decide

theorem witness_InstructionsThatCanFault : State.reset.fault = none ∧
    obs (exec .ret State.reset) (fun t => t.fault.isSome) = some true ∧
    obs (exec (.ldB 0) State.reset) (fun t => t.fault.isSome) = some true := by decide

/-- Reset meets the invariant, and its step is a next state. -/
theorem witness_EveryStepKeepsTheInvariant : State.reset.Inv ∧ obs (step State.reset) (fun t => t.pc) = some 0x202 :=
  ⟨⟨by decide, by decide, by decide, fun _ h => by cases h⟩, by decide⟩

theorem witness_NoStepWritesTheConfiguration : obs (step State.reset) (fun t => t.pc) = some 0x202 := by decide

theorem witness_LowMemoryKeepsItsConstructionBytes : State.reset.cfg.protectLowMemory = true ∧
    (∀ a, a < 0x200 → State.reset.readByte a = unlisted State.reset.cfg a) ∧
    obs (step State.reset) (fun t => t.pc) = some 0x202 := ⟨rfl, fun _ _ => rfl, by decide⟩

theorem witness_StepStopsOnlyAtALateLoad :
    let s := queued { State.reset with env := { State.reset.env with loadOpen := false } } [.load []]
    s.env.loadOpen = false ∧ s.env.ops = .load [] :: [] := by decide

theorem witness_EachComponentHasItsWriters : obs (exec .cls State.reset) (fun t => t.pc) = some 0x202 := by decide

theorem witness_SoundTimerIsNeverRead : obs (exec (.ldStVx 0) (State.reset.setSt 7)) (fun t => t.st) = some 0 ∧
    obs (exec (.ldDtVx 0) (State.reset.setSt 7)) (fun t => t.st) = some 7 ∧ ∀ x, Instr.ldDtVx 0 ≠ .ldStVx x :=
  ⟨by decide, by decide, fun _ h => by cases h⟩

theorem witness_SlotsAboveTheTopAreNeverRead :
    let s : State := { State.reset with sp := 1, stack := State.reset.stack.set 0 0x204 }
    (∀ j : Fin 16, j.val < s.sp.val → ((s.stack.set 1 0x777)[j.val]'j.isLt) = s.stack[j.val]'j.isLt) ∧
      obs (exec .ret s) (fun t => t.pc) = some 0x204 := by decide

theorem witness_SysFollowsItsPolicy : (0xFFF#12 ≠ 0x0E0 ∧ 0xFFF#12 ≠ 0x0EE) ∧ State.reset.cfg.sysPolicy = .nop ∧
    (under State.reset fun c => { c with sysPolicy := .halt }).cfg.sysPolicy = .halt := by decide

theorem witness_CallPushesTheReturnAddress :
    ({ State.reset with sp := 15 } : State).sp.val < 16 ∧ ({ State.reset with sp := 16 } : State).sp.val = 16 := by decide

theorem witness_RetTakesTheTopOfTheStack :
    0 < ({ State.reset with sp := 16 } : State).sp.val ∧ State.reset.sp.val = 0 := by decide

theorem witness_SixteenNestedCallsReturnInReverse : State.reset.fault = none ∧ State.reset.sp = 0 ∧
    (List.replicate 16 ((0x200 : Word), (0x200 : Addr12))).length = 16 := by decide

theorem witness_LogicOperationsResetVF :
    ((Instr.orReg 1 2 = .orReg 1 2 ∧ (0x1 : Nibble) = 0x1) ∧ (1 : Nibble) ≠ vF ∧ State.reset.cfg.logicVfReset = true) ∧
      (under State.reset fun c => { c with logicVfReset := false }).cfg.logicVfReset = false := by decide

/-- The destination of an instruction that writes a flag, other than VF. -/
theorem witness_AddSetsTheCarry : (0xE : Nibble) ≠ vF := by decide

theorem witness_SubtractionsSetNotBorrow : (0x0 : Nibble) ≠ vF := by decide

theorem witness_ShiftsMoveOneBit : (0x1 : Nibble) ≠ vF ∧ (State.reset.cfg.shiftSource = .vy ∧ (0 : Byte) = State.reset.reg 2) ∧
    (under State.reset fun c => { c with shiftSource := .vx }).cfg.shiftSource = .vx := by decide

theorem witness_RandomByteIsMasked : State.reset.env.rndIn = [] ∧
    (State.reset.setEnv { State.reset.env with rndIn := [0xAB] }).env.rndIn = 0xAB :: [] := by decide

/-- The clauses of the BCD store at the ends of their ranges: 0x200 and 0xFFD run, 0x1FF is protected, 0xFFE is out of range; without
protection 0 runs. -/
theorem witness_DecimalDigitsAreStored :
    ((regsI 0x200 []).i.toNat + 2 ≤ 0xFFF ∧ 0x200 ≤ (regsI 0x200 []).i.toNat) ∧
    ((regsI 0xFFD []).i.toNat + 2 ≤ 0xFFF ∧ 0x200 ≤ (regsI 0xFFD []).i.toNat) ∧
    ((regsI 0x1FF []).cfg.protectLowMemory = true ∧ (regsI 0x1FF []).i.toNat < 0x200) ∧
    0xFFF < (regsI 0xFFE []).i.toNat + 2 ∧
    (under State.reset fun c => { c with protectLowMemory := false }).cfg.protectLowMemory = false := by decide

theorem witness_BlockStoreWritesV0ToVx :
    ((regsI 0x200 []).i.toNat + (1 : Nibble).toNat ≤ 0xFFF ∧ 0x200 ≤ (regsI 0x200 []).i.toNat) ∧
    ((regsI 0xFFE []).i.toNat + (1 : Nibble).toNat ≤ 0xFFF ∧ 0x200 ≤ (regsI 0xFFE []).i.toNat) ∧
    ((regsI 0x1FF []).cfg.protectLowMemory = true ∧ (regsI 0x1FF []).i.toNat < 0x200) ∧
    0xFFF < (regsI 0xFFF []).i.toNat + (1 : Nibble).toNat ∧ (0 : Nibble).toNat ≤ (1 : Nibble).toNat := by decide

theorem witness_BlockLoadReadsV0ToVx : (regsI 0xFFE []).i.toNat + (1 : Nibble).toNat ≤ 0xFFF ∧
    0xFFF < (regsI 0xFFF []).i.toNat + (1 : Nibble).toNat := by decide

theorem witness_BlockLoadReadsBackABlockStore : (regsI 0x300 [(0, 0x12), (1, 0x34)]).fault = none ∧
    obs (exec (.ldMemVx 1) (regsI 0x300 [(0, 0x12), (1, 0x34)])) (fun t => t.fault) = some none := by decide

/-- A store of V0 alone, the last byte of memory among its addresses, and a store of three digits: each completes and stores the bytes
named. -/
theorem witness_FetchSeesEarlierStores :
    let s := regsI 0xFFF [(0, 0x12)]
    let u := regsI 0x300 [(3, 0x9C)]
    (s.fault = none ∧ obs (exec (.ldMemVx 0) s) (fun t => t.fault) = some none ∧ [s.reg 0].length = (0 : Nibble).toNat + 1 ∧
      (∀ (k : Nibble) (h : k.toNat < [s.reg 0].length), [s.reg 0][k.toNat]'h = s.reg k)) ∧
    (u.fault = none ∧ obs (exec (.ldB 3) u) (fun t => t.fault) = some none ∧
      ([1, 5, 6] : List Byte).map BitVec.toNat = [(u.reg 3).toNat / 100, (u.reg 3).toNat / 10 % 10, (u.reg 3).toNat % 10]) ∧
    (0xFFE#16).toNat ≤ 0xFFE := by decide

/-- A fetch one byte below a store of V0 reads an old byte and then the stored one. -/
theorem test_fetch_half_stored :
    obs (exec (.ldMemVx 0) (regsI 0x301 [(0, 0x12)])) (fun t => (t.setPc 0x300).fetch) = some (.word 0x0012) := by decide

theorem witness_DrawTogglesTheCoveredCells :
    (∀ r, r < (2 : Nibble).toNat → (regsI 0xFFE []).i.toNat + r ≤ 0xFFF) ∧
      (∃ r, r < (2 : Nibble).toNat ∧ 0xFFF < (regsI 0xFFF []).i.toNat + r) ∧
      (∀ r, r < (0 : Nibble).toNat → (regsI 0xFFFF []).i.toNat + r ≤ 0xFFF) :=
  ⟨by decide, ⟨1, by decide⟩, by decide⟩

/-- A draw of one row of eight pixels on a clear display: it covers (0, 0), turns that cell on, and drawn again turns it off. -/
theorem witness_DrawTogglesTheCoveredCells_cells : SpriteCovers State.reset 0 1 1 0 0 ∧ ¬SpriteCovers State.reset 0 1 0 0 0 ∧
    obs (exec (.drw 0 1 1) State.reset) (fun t => (Display.cell State.reset.disp 0 0, Display.cell t.disp 0 0)) =
      some (false, true) ∧
    obs (exec (.drw 0 1 1) (State.reset.setDisp (Display.toggle State.reset.disp 0 0))) (fun t => Display.cell t.disp 0 0) =
      some false :=
  ⟨⟨0, 0, by decide⟩, fun ⟨_, _, h, _⟩ => absurd h (Nat.not_lt_zero _), by decide, by decide⟩

theorem witness_DrawingTwiceRestoresTheDisplay : State.reset.fault = none ∧
    obs (exec (.drw 0 1 1) State.reset) (fun t => t.fault) = some none ∧
    (∀ px py, Display.cell State.reset.disp px py = false) :=
  ⟨rfl, by decide, fun px py => by simp [State.reset, State.construct, Display.cell]⟩

theorem witness_KeySkipsTestTheLowNibble : (5 : Nibble).toNat = ((regs [(3, 0x15)]).reg 3).toNat % 16 := by decide

theorem witness_KeyWaitTakesTheLeastHeldKey :
    ((State.reset.setKey 0xF true).keyHeld 0xF = true ∧
      ∀ j : Nibble, j.toNat < (0xF : Nibble).toNat → (State.reset.setKey 0xF true).keyHeld j = false) ∧
    ∀ k, State.reset.keyHeld k = false := by decide

theorem witness_LoadCopiesTheImage (b : Byte) :
    State.reset.env.loadOpen = true ∧
      (List.replicate 3584 b).length ≤ 4096 - 0x200 ∧ 4096 - 0x200 < (List.replicate 3585 b).length :=
  ⟨rfl, by rw [List.length_replicate], by rw [List.length_replicate]; decide⟩

theorem witness_SelfJumpChangesNothing : atTop.fault = none ∧ atTop.atSelfJump = true := by decide

end Sys2Proof.Tests
end

/-! The state family (spec/10_state.md): what an instruction can write, what it does not read, the invariant of every step, and the
construction values. -/

namespace Sys2Proof.Machine

/-! ### What the instructions with more than one outcome can answer -/

/-- The machine with FAULT latched for the instruction at PC and nothing else changed (R244). -/
def Latched (s t : State) : Prop :=
  ∃ (code : FaultCode) (op : Option Word) (addr : Option Nat),
    t = { s with fault := some { code := code, p := s.pc, op := op, addr := addr } }

theorem latched_of_raise {code : FaultCode} {op : Option Word} {addr : Option Nat} {s t : State}
    (h : raise code op addr s = .next t) : Latched s t := by
  cases h
  exact ⟨code, op, addr, rfl⟩

theorem guarded_body_or_latched {i : Instr} {w : Bool} {base n : Nat} {s body t : State}
    (h : guarded i w base n s body = .next t) : (firstFailure s.cfg w base n = none ∧ t = body) ∨ Latched s t := by
  obtain hbody | ⟨code, a, -, ht⟩ := guarded_next h
  · exact .inl hbody
  · exact .inr ⟨code, _, _, ht⟩

theorem execSys_next {nnn : Addr12} {s t : State} (h : execSys nnn s = .next t) : t = s.advance ∨ Latched s t := by
  unfold execSys at h
  split at h
  · cases h
    exact .inl rfl
  · exact .inr (latched_of_raise h)

theorem execRet_of_pos {s : State} (hsp : 0 < s.sp.val) :
    execRet s = .next { s with sp := ⟨s.sp.val - 1, by omega⟩, pc := s.stack[s.sp.val - 1]'(by omega) } := by
  simp [execRet, State.pop_eq_some.mpr ⟨hsp, rfl, rfl⟩, State.setPc]

theorem execRet_of_zero {s : State} (hsp : s.sp.val = 0) :
    execRet s = raise .stackUnderflow (some (encode .ret)) none s := by
  simp [execRet, State.pop_eq_none.mpr hsp]

theorem execRet_next {s t : State} (h : execRet s = .next t) :
    (∃ hsp : 0 < s.sp.val,
      t = { s with sp := ⟨s.sp.val - 1, by omega⟩, pc := s.stack[s.sp.val - 1]'(by omega) }) ∨ Latched s t := by
  obtain hsp | hsp := Nat.eq_zero_or_pos s.sp.val
  · exact .inr (latched_of_raise (execRet_of_zero hsp ▸ h))
  · rw [execRet_of_pos hsp] at h
    cases h
    exact .inl ⟨hsp, rfl⟩

theorem execCall_of_lt {nnn : Addr12} {s : State} (hsp : s.sp.val < 16) :
    execCall nnn s = .next { s with
      stack := s.stack.set s.sp.val (s.pc + 2) hsp, sp := ⟨s.sp.val + 1, by omega⟩, pc := zext16 nnn } := by
  simp [execCall, State.push_eq_some.mpr ⟨hsp, rfl⟩, State.setPc]

theorem execCall_of_full {nnn : Addr12} {s : State} (hsp : s.sp.val = 16) :
    execCall nnn s = raise .stackOverflow (some (encode (.call nnn))) none s := by
  simp [execCall, State.push_eq_none.mpr hsp]

theorem execCall_next {nnn : Addr12} {s t : State} (h : execCall nnn s = .next t) :
    (∃ hsp : s.sp.val < 16,
      t = { s with
        stack := s.stack.set s.sp.val (s.pc + 2) hsp, sp := ⟨s.sp.val + 1, by omega⟩, pc := zext16 nnn }) ∨
      Latched s t := by
  obtain hsp | hsp : s.sp.val < 16 ∨ s.sp.val = 16 := by omega
  · rw [execCall_of_lt hsp] at h
    cases h
    exact .inl ⟨hsp, rfl⟩
  · exact .inr (latched_of_raise (execCall_of_full hsp ▸ h))

theorem execLdVxK_next {x : Nibble} {s t : State} (h : execLdVxK x s = .next t) :
    t = s ∨ ∃ b, t = (s.setReg x b).advance := by
  unfold execLdVxK at h
  split at h
  · cases h
    exact .inr ⟨_, rfl⟩
  · cases h
    exact .inl rfl

theorem execUnknown_next {op : Word} {s t : State} (h : execUnknown op s = .next t) : t = s.advance ∨ Latched s t := by
  obtain hu | hu := execUnknown_cases op s <;> rw [hu] at h
  · cases h
    exact .inl rfl
  · exact .inr (latched_of_raise h)

/-! ### The writers of each component (R25 to R31, R36; spec/20_memory.md R60) -/

/-- Settles O21, by the cases of the instruction; a raised fault changes none of these components. -/
theorem eachComponentHasItsWriters : Obligations.EachComponentHasItsWriters := by
  intro i s t h
  cases i with
  | sys nnn => obtain rfl | ⟨_, _, _, rfl⟩ := execSys_next h <;> simp
  | ret => obtain ⟨_, rfl⟩ | ⟨_, _, _, rfl⟩ := execRet_next h <;> simp
  | call nnn => obtain ⟨_, rfl⟩ | ⟨_, _, _, rfl⟩ := execCall_next h <;> simp
  | ldVxK x => obtain rfl | ⟨_, rfl⟩ := execLdVxK_next h <;> simp
  | drw x y n => obtain ⟨-, rfl⟩ | ⟨_, _, _, rfl⟩ := guarded_body_or_latched h <;> simp
  | ldB x => obtain ⟨-, rfl⟩ | ⟨_, _, _, rfl⟩ := guarded_body_or_latched h <;> simp
  | ldMemVx x => obtain ⟨-, rfl⟩ | ⟨_, _, _, rfl⟩ := guarded_body_or_latched h <;> simp
  | ldVxMem x => obtain ⟨-, rfl⟩ | ⟨_, _, _, rfl⟩ := guarded_body_or_latched h <;> simp
  | _ => cases h; simp

theorem exec_cfg {i : Instr} {s t : State} (h : exec i s = .next t) : t.cfg = s.cfg :=
  (eachComponentHasItsWriters i s t h).1

theorem exec_stack_or_call {i : Instr} {s t : State} (h : exec i s = .next t) :
    t.stack = s.stack ∨ ∃ nnn, i = .call nnn := by
  obtain ⟨-, -, -, hstack, -⟩ := eachComponentHasItsWriters i s t h
  exact hstack

theorem exec_sp_or_ret_or_call {i : Instr} {s t : State} (h : exec i s = .next t) :
    t.sp = s.sp ∨ i = .ret ∨ ∃ nnn, i = .call nnn := by
  obtain ⟨-, -, -, -, hsp, -⟩ := eachComponentHasItsWriters i s t h
  exact hsp

theorem exec_st_or_ldSt {i : Instr} {s t : State} (h : exec i s = .next t) : t.st = s.st ∨ ∃ x, i = .ldStVx x := by
  obtain ⟨-, -, -, -, -, -, hst, -⟩ := eachComponentHasItsWriters i s t h
  exact hst

theorem exec_mem_or_store {i : Instr} {s t : State} (h : exec i s = .next t) :
    t.mem = s.mem ∨ ∃ x, i = .ldB x ∨ i = .ldMemVx x := by
  obtain ⟨-, -, -, -, -, -, -, -, hmem, -⟩ := eachComponentHasItsWriters i s t h
  exact hmem

/-! ### What a Cycle and a step can answer -/

theorem cycle_next {s t : State} (h : cycle s = .next t) :
    t = s ∨
      (s.fault = none ∧ (Latched s.closeLoad t ∨
        (s.pc.toNat ≤ 0xFFE ∧ ((∃ i, exec i s.closeLoad = .next t) ∨ t = s.closeLoad.advance)))) := by
  obtain ⟨-, ho⟩ | ⟨hf, a, -, ho⟩ | ⟨hf, op, hw, ho⟩ := cycle_cases h
  · cases ho
    exact .inl rfl
  · exact .inr ⟨hf, .inl (latched_of_raise ho.symm)⟩
  · have hpc := (State.fetch_eq_word hw).1
    obtain ⟨i, -, he⟩ | ⟨w, -, he⟩ := execWord_cases op s.closeLoad
    · exact .inr ⟨hf, .inr ⟨hpc, .inl ⟨i, by rw [← he, ← ho]⟩⟩⟩
    · obtain ht | hl := execUnknown_next (he.symm.trans ho.symm)
      · exact .inr ⟨hf, .inr ⟨hpc, .inr ht⟩⟩
      · exact .inr ⟨hf, .inl hl⟩

/-- A step is one operation of the host on the machine with its queue advanced. -/
theorem step_eq_hostOp (s : State) : ∃ op e, step s = hostOp op (s.setEnv e) := by
  obtain ⟨-, h⟩ | ⟨op, rest, -, h⟩ := step_cases s
  · exact ⟨.cycle, s.env, h⟩
  · exact ⟨op, _, h⟩

theorem hostOp_load_next {image : List Byte} {s t : State} (h : hostOp (.load image) s = .next t) : t = s.load image := by
  simp only [hostOp] at h
  split at h <;> cases h
  rfl

/-- Settles O8, by whether the queue is empty. -/
theorem stepPerformsTheQueuedOperation : Obligations.StepPerformsTheQueuedOperation :=
  fun _ => ⟨step_of_empty, fun _ _ => step_of_cons⟩

/-! ### The configuration (R31) -/

theorem cycle_cfg {s t : State} (h : cycle s = .next t) : t.cfg = s.cfg := by
  obtain rfl | ⟨-, ⟨_, _, _, rfl⟩ | ⟨-, ⟨i, hi⟩ | rfl⟩⟩ := cycle_next h
  · rfl
  · rfl
  · exact (exec_cfg hi).trans s.closeLoad_cfg
  · rfl

theorem State.load_cfg (s : State) (image : List Byte) : (s.load image).cfg = s.cfg := by
  unfold State.load
  split <;> simp [State.loadImage]

theorem hostOp_cfg {op : HostOp} {s t : State} (h : hostOp op s = .next t) : t.cfg = s.cfg := by
  cases op with
  | cycle => exact cycle_cfg h
  | load image => rw [hostOp_load_next h, State.load_cfg]
  | tick => cases h; rfl
  | setKey k b => cases h; rfl
  | construct => cases h; rfl

/-- Settles O19: a step is one host operation, and none writes the configuration. -/
theorem noStepWritesTheConfiguration : Obligations.NoStepWritesTheConfiguration := by
  intro s t h
  obtain ⟨op, e, he⟩ := step_eq_hostOp s
  rw [he] at h
  exact (hostOp_cfg h).trans (s.setEnv_cfg e)

/-! ### The invariant of every step -/

/-- What can stand in PC after an instruction at P: P, P + 2, P + 4, an address up to 0x10FE, or a word of the stack. -/
def PcAfter (s : State) (w : Word) : Prop :=
  w = s.pc ∨ w = s.pc + 2 ∨ w = s.pc + 4 ∨ w.toNat ≤ 0x10FE ∨ ∃ j : Fin 16, w = s.stack[j.val]'j.isLt

theorem pcAfter_skipIf (s : State) (c : Bool) : PcAfter s (s.skipIf c).pc := by
  cases c
  · exact .inr (.inl rfl)
  · exact .inr (.inr (.inl rfl))

theorem pcAfter_zext16 (s : State) (nnn : Addr12) : PcAfter s (zext16 nnn) :=
  .inr (.inr (.inr (.inl (by rw [zext16_toNat]; omega))))

/-- The target of `JP V0` is at most 0xFFF + 0xFF (spec/41_control_flow.md R127). -/
theorem pcAfter_jumpV0 (s : State) (nnn : Addr12) (b : Byte) : PcAfter s (BitVec.ofNat 16 (nnn.toNat + b.toNat)) :=
  .inr (.inr (.inr (.inl (by rw [BitVec.toNat_ofNat]; omega))))

theorem pcAfter_of_latched {s t : State} (h : Latched s t) : PcAfter s t.pc := by
  obtain ⟨_, _, _, rfl⟩ := h
  exact .inl rfl

theorem pcAfter_of_guarded {i : Instr} {w : Bool} {base n : Nat} {s body t : State}
    (h : guarded i w base n s body = .next t) (hbody : body.pc = s.pc + 2) : PcAfter s t.pc := by
  obtain ⟨-, rfl⟩ | hl := guarded_body_or_latched h
  · exact .inr (.inl hbody)
  · exact pcAfter_of_latched hl

theorem exec_pcAfter {i : Instr} {s t : State} (h : exec i s = .next t) : PcAfter s t.pc := by
  cases i with
  | sys nnn =>
    obtain rfl | hl := execSys_next h
    · exact .inr (.inl rfl)
    · exact pcAfter_of_latched hl
  | ret =>
    obtain ⟨hsp, rfl⟩ | hl := execRet_next h
    · exact .inr (.inr (.inr (.inr ⟨⟨s.sp.val - 1, by omega⟩, rfl⟩)))
    · exact pcAfter_of_latched hl
  | call nnn =>
    obtain ⟨_, rfl⟩ | hl := execCall_next h
    · exact pcAfter_zext16 s nnn
    · exact pcAfter_of_latched hl
  | jp nnn => cases h; exact pcAfter_zext16 s nnn
  | jpV0 nnn => cases h; exact pcAfter_jumpV0 s nnn _
  | seImm x kk => cases h; exact pcAfter_skipIf s _
  | sneImm x kk => cases h; exact pcAfter_skipIf s _
  | seReg x y => cases h; exact pcAfter_skipIf s _
  | sneReg x y => cases h; exact pcAfter_skipIf s _
  | skp x => cases h; exact pcAfter_skipIf s _
  | sknp x => cases h; exact pcAfter_skipIf s _
  | ldVxK x =>
    obtain rfl | ⟨_, rfl⟩ := execLdVxK_next h
    · exact .inl rfl
    · exact .inr (.inl rfl)
  | drw x y n => exact pcAfter_of_guarded h rfl
  | ldB x => exact pcAfter_of_guarded h (by simp)
  | ldMemVx x => exact pcAfter_of_guarded h (by simp)
  | ldVxMem x => exact pcAfter_of_guarded h rfl
  | _ => cases h; exact .inr (.inl (by simp))

/-- The invariant speaks of memory, the configuration, PC, the stack and FAULT alone. -/
theorem State.Inv.of_same {s t : State} (hs : s.Inv) (hmem : t.mem = s.mem) (hcfg : t.cfg = s.cfg) (hpc : t.pc = s.pc)
    (hstack : t.stack = s.stack) (hfault : t.fault = s.fault) : t.Inv where
  mem_wf := by rw [hcfg, hmem]; exact hs.mem_wf
  pc_le := by rw [hpc]; exact hs.pc_le
  stack_le := by rw [hstack]; exact hs.stack_le
  fault_p := by rw [hfault, hpc]; exact hs.fault_p

theorem State.Inv.setEnv {s : State} (hs : s.Inv) (e : Env) : (s.setEnv e).Inv := hs.of_same rfl rfl rfl rfl rfl

theorem State.Inv.latched {s t : State} (hs : s.Inv) (h : Latched s t) : t.Inv := by
  obtain ⟨code, op, addr, rfl⟩ := h
  exact ⟨hs.mem_wf, hs.pc_le, hs.stack_le, by rintro r ⟨⟩; rfl⟩

theorem State.Inv.pcAfter_le {s : State} (hs : s.Inv) (hpc : s.pc.toNat ≤ 0xFFE) {w : Word} (h : PcAfter s w) :
    w.toNat ≤ 0x10FE := by
  obtain rfl | rfl | rfl | hle | ⟨j, rfl⟩ := h
  · exact hs.pc_le
  · bv_omega
  · bv_omega
  · exact hle
  · have := hs.stack_le j
    omega

theorem State.Inv.advance {s : State} (hs : s.Inv) (hpc : s.pc.toNat ≤ 0xFFE) (hf : s.fault = none) : s.advance.Inv where
  mem_wf := hs.mem_wf
  pc_le := hs.pcAfter_le hpc (.inr (.inl rfl))
  stack_le := hs.stack_le
  fault_p := by simp [hf]

/-- The return address CALL stores is P + 2 for a fetchable P, so at most 0x1000 (spec/41_control_flow.md R126). -/
theorem State.Inv.exec_stack_le {i : Instr} {s t : State} (hs : s.Inv) (hpc : s.pc.toNat ≤ 0xFFE) (h : exec i s = .next t)
    (j : Fin 16) : (t.stack[j.val]'j.isLt).toNat ≤ 0x1000 := by
  obtain hsame | ⟨nnn, rfl⟩ := exec_stack_or_call h
  · rw [hsame]
    exact hs.stack_le j
  · obtain ⟨hsp, rfl⟩ | ⟨_, _, _, rfl⟩ := execCall_next h
    · simp only [Vector.getElem_set]
      split
      · bv_omega
      · exact hs.stack_le j
    · exact hs.stack_le j

/-- A store whose checks pass writes below 4096 only. -/
theorem State.Inv.guardedStore_memWf {i : Instr} {base n : Nat} {bytes : List Byte} {s body t : State} (hs : s.Inv)
    (h : guarded i true base n s body = .next t) (hn : 0 < n) (hlen : bytes.length = n)
    (hmem : body.mem = (s.writeBytes base bytes).mem) (hcfg : body.cfg = s.cfg) : t.memWf := by
  obtain ⟨hff, rfl⟩ | hl := guarded_body_or_latched h
  · have hb := (firstFailure_none_bound hff hn).1
    have hw : (s.writeBytes base bytes).memWf := State.memWf_writeBytes hs.mem_wf (by omega)
    simpa [State.memWf, hmem, hcfg] using hw
  · exact (hs.latched hl).mem_wf

theorem State.Inv.exec_memWf {i : Instr} {s t : State} (hs : s.Inv) (h : exec i s = .next t) : t.memWf := by
  obtain hsame | ⟨x, rfl | rfl⟩ := exec_mem_or_store h
  · rw [State.memWf, hsame, exec_cfg h]
    exact hs.mem_wf
  · exact hs.guardedStore_memWf (bytes := bcdDigits (s.reg x)) h (by decide) rfl (by simp) (by simp)
  · exact hs.guardedStore_memWf (bytes := s.blockRegs x) h (Nat.succ_pos _) (s.length_blockRegs x) (by simp) (by simp)

theorem State.Inv.of_exec {i : Instr} {s t : State} (hs : s.Inv) (hpc : s.pc.toNat ≤ 0xFFE) (hf : s.fault = none)
    (h : exec i s = .next t) : t.Inv := by
  obtain ⟨u, hu, hfault⟩ | ⟨code, addr, hr⟩ := exec_completesOrRaises i s
  · obtain rfl : u = t := by simpa [h] using hu.symm
    exact ⟨hs.exec_memWf h, hs.pcAfter_le hpc (exec_pcAfter h), hs.exec_stack_le hpc h, by simp [hfault, hf]⟩
  · exact hs.latched (latched_of_raise (hr ▸ h))

theorem State.Inv.of_cycle {s t : State} (hs : s.Inv) (h : cycle s = .next t) : t.Inv := by
  have hc : s.closeLoad.Inv := hs.setEnv _
  obtain rfl | ⟨hf, hl | ⟨hpc, ⟨i, hi⟩ | rfl⟩⟩ := cycle_next h
  · exact hs
  · exact hc.latched hl
  · exact hc.of_exec hpc hf hi
  · exact hc.advance hpc hf

/-- LOAD copies at most 3584 bytes to 0x200 on, so writes below 4096 only (spec/70_reset_and_hazards.md R283). -/
theorem State.Inv.load {s : State} (hs : s.Inv) (image : List Byte) : (s.load image).Inv := by
  unfold State.load
  split
  · exact hs.setEnv _
  · rename_i hlen
    have hfit : progBase + image.length ≤ memSize := by
      simp only [maxImage, memSize, progBase] at hlen ⊢
      omega
    have hw : (s.loadImage image).Inv :=
      ⟨State.memWf_writeBytes hs.mem_wf hfit, by simpa [State.loadImage] using hs.pc_le,
        by simpa [State.loadImage] using hs.stack_le, by simpa [State.loadImage] using hs.fault_p⟩
    exact hw.setEnv _

theorem State.inv_construct (c : Config) (e : Env) : (State.construct c e).Inv where
  mem_wf := rfl
  pc_le := by simp [State.construct]
  stack_le := by simp [State.construct]
  fault_p := by simp [State.construct]

theorem State.Inv.of_hostOp {op : HostOp} {s t : State} (hs : s.Inv) (h : hostOp op s = .next t) : t.Inv := by
  cases op with
  | cycle => exact hs.of_cycle h
  | load image => rw [hostOp_load_next h]; exact hs.load image
  | tick => cases h; exact hs.of_same rfl rfl rfl rfl rfl
  | setKey k b => cases h; exact hs.of_same rfl rfl rfl rfl rfl
  | construct => cases h; exact State.inv_construct _ _

/-- Settles O16: a step is one host operation, and each keeps the invariant. -/
theorem everyStepKeepsTheInvariant : Obligations.EveryStepKeepsTheInvariant := by
  intro s t hs h
  obtain ⟨op, e, he⟩ := step_eq_hostOp s
  rw [he] at h
  exact (hs.setEnv e).of_hostOp h

/-- Settles O17: reset is a construction, and a construction lists no memory, pushes nothing and latches nothing. -/
theorem constructionMeetsTheInvariant : Obligations.ConstructionMeetsTheInvariant :=
  ⟨State.inv_construct _ _, State.inv_construct⟩

/-! ### ST and the slots at or above SP are not read (R26, R27, R40) -/

/-- The machine with another sound timer and another stack. -/
def State.withStAndStack (s : State) (b : Byte) (stack : Vector Word 16) : State := { s with st := b, stack := stack }

theorem State.setSt_eq_withStAndStack (s : State) (b : Byte) : s.setSt b = s.withStAndStack b s.stack := rfl

theorem State.withStack_eq_withStAndStack (s : State) (stack : Vector Word 16) :
    { s with stack := stack } = s.withStAndStack s.st stack := rfl

theorem State.writeBytes_withStAndStack (s : State) (b : Byte) (stack : Vector Word 16) (base : Nat) (bs : List Byte) :
    (s.withStAndStack b stack).writeBytes base bs = (s.writeBytes base bs).withStAndStack b stack := by
  induction bs generalizing s base with
  | nil => rfl
  | cons w rest ih => exact ih (s.writeByte base w) (base + 1)

theorem State.setRegLogic_withStAndStack (s : State) (b : Byte) (stack : Vector Word 16) (x : Nibble) (r : Byte) :
    (s.withStAndStack b stack).setRegLogic x r = (s.setRegLogic x r).withStAndStack b stack :=
  (apply_ite (State.withStAndStack · b stack) (s.cfg.logicVfReset = true) ((s.setReg x r).setReg vF 0) (s.setReg x r)).symm

section
variable {s t : State} {b : Byte} {stack : Vector Word 16}

theorem execSys_withStAndStack {nnn : Addr12} (h : execSys nnn s = .next t) :
    execSys nnn (s.withStAndStack b stack) = .next (t.withStAndStack b stack) := by
  simp only [execSys, State.withStAndStack] at h ⊢
  split at h <;> cases h <;> rfl

theorem execLdVxK_withStAndStack {x : Nibble} (h : execLdVxK x s = .next t) :
    execLdVxK x (s.withStAndStack b stack) = .next (t.withStAndStack b stack) := by
  simp only [execLdVxK, State.leastHeldKey, State.withStAndStack] at h ⊢
  split at h <;> cases h <;> rfl

theorem guarded_withStAndStack {i : Instr} {w : Bool} {base n : Nat} {body : State}
    (h : guarded i w base n s body = .next t) :
    guarded i w base n (s.withStAndStack b stack) (body.withStAndStack b stack) = .next (t.withStAndStack b stack) := by
  obtain ⟨hff, rfl⟩ | ⟨code, a, hff, rfl⟩ := guarded_next h
  · exact guarded_of_none hff
  · exact guarded_of_some hff

/-- RET reads one slot, the one below SP. -/
theorem execRet_withStAndStack (hagree : ∀ j : Fin 16, j.val < s.sp.val → stack[j.val]'j.isLt = s.stack[j.val]'j.isLt)
    (h : execRet s = .next t) : execRet (s.withStAndStack b stack) = .next (t.withStAndStack b stack) := by
  obtain hsp | hsp := Nat.eq_zero_or_pos s.sp.val
  · rw [execRet_of_zero hsp] at h
    cases h
    exact execRet_of_zero hsp
  · rw [execRet_of_pos hsp] at h
    cases h
    have htop := hagree ⟨s.sp.val - 1, by omega⟩ (Nat.sub_lt hsp Nat.one_pos)
    refine (execRet_of_pos (s := s.withStAndStack b stack) hsp).trans ?_
    simp only [State.withStAndStack, htop]

/-- CALL pushes the same word on either stack, or raises the same fault. -/
theorem execCall_withStAndStack {nnn : Addr12} (h : execCall nnn s = .next t) :
    (∃ hsp : s.sp.val < 16,
      execCall nnn (s.withStAndStack b stack) = .next (t.withStAndStack b (stack.set s.sp.val (s.pc + 2) hsp)) ∧
        t.stack = s.stack.set s.sp.val (s.pc + 2) hsp ∧ t.sp.val = s.sp.val + 1) ∨
      (execCall nnn (s.withStAndStack b stack) = .next (t.withStAndStack b stack) ∧ t.stack = s.stack ∧ t.sp = s.sp) := by
  obtain hsp | hsp : s.sp.val < 16 ∨ s.sp.val = 16 := by omega
  · rw [execCall_of_lt hsp] at h
    cases h
    exact .inl ⟨hsp, execCall_of_lt (s := s.withStAndStack b stack) hsp, rfl, rfl⟩
  · rw [execCall_of_full hsp] at h
    cases h
    exact .inr ⟨execCall_of_full hsp, rfl, rfl⟩

/-- An instruction that does not write ST or the stack does the same under another ST and another stack with the same slots below SP. -/
theorem exec_withStAndStack {i : Instr}
    (hagree : ∀ j : Fin 16, j.val < s.sp.val → stack[j.val]'j.isLt = s.stack[j.val]'j.isLt)
    (hcall : ∀ nnn, i ≠ .call nnn) (hst : ∀ x, i ≠ .ldStVx x) (h : exec i s = .next t) :
    exec i (s.withStAndStack b stack) = .next (t.withStAndStack b stack) := by
  cases i with
  | call nnn => exact absurd rfl (hcall nnn)
  | ldStVx x => exact absurd rfl (hst x)
  | ret => exact execRet_withStAndStack hagree h
  | sys nnn => exact execSys_withStAndStack h
  | ldVxK x => exact execLdVxK_withStAndStack h
  | orReg x y => cases h; simp only [exec, execOrReg, State.setRegLogic_withStAndStack]; rfl
  | andReg x y => cases h; simp only [exec, execAndReg, State.setRegLogic_withStAndStack]; rfl
  | xorReg x y => cases h; simp only [exec, execXorReg, State.setRegLogic_withStAndStack]; rfl
  | ldB x =>
    simp only [exec, execLdB, State.writeBytes_withStAndStack]
    exact guarded_withStAndStack h
  | ldMemVx x =>
    simp only [exec, execLdMemVx, State.writeBytes_withStAndStack]
    exact guarded_withStAndStack h
  | drw x y n => exact guarded_withStAndStack h
  | ldVxMem x => exact guarded_withStAndStack h
  | _ => cases h; rfl

end

theorem exec_setSt {i : Instr} {s t : State} {b : Byte} (hst : ∀ x, i ≠ .ldStVx x) (h : exec i s = .next t) :
    exec i (s.setSt b) = .next (t.setSt b) := by
  by_cases hcall : ∃ nnn, i = .call nnn
  · obtain ⟨nnn, rfl⟩ := hcall
    rw [t.setSt_eq_withStAndStack]
    obtain ⟨_, he, hstack, -⟩ | ⟨he, hstack, -⟩ := execCall_withStAndStack (b := b) (stack := s.stack) h
    · rw [hstack]; exact he
    · rw [hstack]; exact he
  · have hstack := (exec_stack_or_call h).resolve_right hcall
    rw [t.setSt_eq_withStAndStack, hstack]
    exact exec_withStAndStack (fun _ _ => rfl) (not_exists.mp hcall) hst h

/-- Settles O22: `LD ST` overwrites ST with a register, and every other instruction carries ST through. -/
theorem soundTimerIsNeverRead : Obligations.SoundTimerIsNeverRead := by
  intro i s t b h
  by_cases hst : ∃ x, i = .ldStVx x
  · obtain ⟨x, rfl⟩ := hst
    cases h
    exact ⟨s.reg x, rfl, fun _ => rfl, fun hne => absurd rfl (hne x)⟩
  · exact ⟨b, exec_setSt (not_exists.mp hst) h, fun hx => absurd hx hst, fun _ => rfl⟩

theorem exec_sp_le {i : Instr} {s t : State} (hcall : ∀ nnn, i ≠ .call nnn) (h : exec i s = .next t) :
    t.sp.val ≤ s.sp.val := by
  obtain hsp | rfl | ⟨nnn, hi⟩ := exec_sp_or_ret_or_call h
  · rw [hsp]
  · obtain ⟨_, rfl⟩ | ⟨_, _, _, rfl⟩ := execRet_next h
    · exact Nat.sub_le _ _
    · exact Nat.le_refl _
  · exact absurd hi (hcall nnn)

theorem execCall_st {nnn : Addr12} {s t : State} (h : exec (.call nnn) s = .next t) : t.st = s.st :=
  (exec_st_or_ldSt h).resolve_right fun ⟨_, hx⟩ => nomatch hx

/-- After CALL the two stacks agree below the new SP: it wrote one word to the one slot added. -/
theorem execCall_withStack {nnn : Addr12} {s t : State} {stack : Vector Word 16}
    (hagree : ∀ j : Fin 16, j.val < s.sp.val → stack[j.val]'j.isLt = s.stack[j.val]'j.isLt)
    (h : exec (.call nnn) s = .next t) :
    ∃ stack' : Vector Word 16, exec (.call nnn) { s with stack := stack } = .next { t with stack := stack' } ∧
      ∀ j : Fin 16, j.val < t.sp.val → stack'[j.val]'j.isLt = t.stack[j.val]'j.isLt := by
  simp only [State.withStack_eq_withStAndStack, execCall_st h]
  obtain ⟨hsp, he, hstack, hsp'⟩ | ⟨he, hstack, hsp'⟩ := execCall_withStAndStack (b := s.st) (stack := stack) h
  · refine ⟨_, he, fun j hj => ?_⟩
    simp only [hstack, Vector.getElem_set]
    split
    · rfl
    · exact hagree j (by omega)
  · exact ⟨stack, he, fun j hj => by rw [hstack]; exact hagree j (hsp' ▸ hj)⟩

/-- An instruction other than CALL leaves the other stack as it was. -/
theorem exec_withStack {i : Instr} {s t : State} {stack : Vector Word 16}
    (hagree : ∀ j : Fin 16, j.val < s.sp.val → stack[j.val]'j.isLt = s.stack[j.val]'j.isLt)
    (hcall : ∀ nnn, i ≠ .call nnn) (h : exec i s = .next t) :
    exec i { s with stack := stack } = .next { t with stack := stack } := by
  by_cases hx : ∃ x, i = .ldStVx x
  · obtain ⟨x, rfl⟩ := hx
    cases h
    rfl
  · rw [t.withStack_eq_withStAndStack, (exec_st_or_ldSt h).resolve_right hx]
    exact exec_withStAndStack hagree hcall (not_exists.mp hx) h

/-- Settles O23: RET reads the slot below SP, CALL writes the slot at SP, and no other instruction uses the stack. -/
theorem slotsAboveTheTopAreNeverRead : Obligations.SlotsAboveTheTopAreNeverRead := by
  intro i s t stack hagree h
  by_cases hcall : ∃ nnn, i = .call nnn
  · obtain ⟨nnn, rfl⟩ := hcall
    exact execCall_withStack hagree h
  · have hstack := (exec_stack_or_call h).resolve_right hcall
    have hsp := exec_sp_le (not_exists.mp hcall) h
    exact ⟨stack, exec_withStack hagree (not_exists.mp hcall) h, fun j hj => by rw [hstack]; exact hagree j (by omega)⟩

/-! ### Construction (R33, R39; spec/70_reset_and_hazards.md R280) -/

@[simp] theorem State.readByte_construct (c : Config) (e : Env) (a : Nat) :
    (State.construct c e).readByte a = unlisted c a := rfl

@[simp] theorem State.reg_construct (c : Config) (e : Env) (k : Nibble) : (State.construct c e).reg k = 0 := by
  simp [State.construct, State.reg]

@[simp] theorem State.stack_construct (c : Config) (e : Env) (j : Fin 16) :
    (State.construct c e).stack[j.val]'j.isLt = 0 := by
  simp [State.construct]

@[simp] theorem State.cell_construct (c : Config) (e : Env) (x : Fin 64) (y : Fin 32) :
    Display.cell (State.construct c e).disp x y = false :=
  Display.cell_clear x y

@[simp] theorem State.keyHeld_construct (c : Config) (e : Env) (k : Nibble) : (State.construct c e).keyHeld k = false := by
  simp [State.construct, State.keyHeld]

theorem unlisted_standard (u : Option UnknownPolicy) (a : Nat) :
    unlisted (Config.standard u) a = if h : a < 0x50 then Config.defaultFont[a]'h else 0 := by
  simp [unlisted, Config.standard]

/-- Settles O18: reset is the construction with FONT_BASE 0 and the default font. -/
theorem resetHoldsTheConstructionValues : Obligations.ResetHoldsTheConstructionValues :=
  ⟨fun a => (State.readByte_construct _ _ a).trans (unlisted_standard none a), State.reg_construct _ _, rfl, rfl, State.stack_construct _ _, rfl, rfl, rfl,
    State.cell_construct _ _, State.keyHeld_construct _ _, rfl⟩

/-- Settles O53: the operation keeps the configuration and constructs beside the queue that was there. -/
theorem constructionStartsAgain : Obligations.ConstructionStartsAgain := fun s =>
  ⟨s.reconstruct, rfl, rfl, fun _ => rfl, State.reg_construct _ _, rfl, rfl, State.stack_construct _ _, rfl, rfl, rfl,
    State.cell_construct _ _, State.keyHeld_construct _ _, rfl, rfl⟩

/-! ### The random input (R36; spec/42_alu.md R161) -/

theorem decode_rnd (x : Nibble) (kk : Byte) : decode (packXKK 0xC x kk) = .instr (.rnd x kk) := by
  simp [decode]

theorem Env.draw_of_queued {e : Env} {r : Byte} {rest : List Byte} (h : e.rndIn = r :: rest) :
    e.draw = (r, { e with rndIn := rest }) := by
  simp [Env.draw, h]

theorem Env.draw_of_empty {e : Env} (h : e.rndIn = []) :
    e.draw = (Config.rndByte e.rndCount, { e with rndCount := e.rndCount + 1 }) := by
  simp [Env.draw, h]

/-- Settles O36: r is the byte drawn, queued or free, and nothing but VX, PC and the host's side is written. -/
theorem randomByteIsMasked : Obligations.RandomByteIsMasked := by
  intro x kk s
  refine ⟨decode_rnd x kk, _, s.env.draw.1, rfl, by simp, rfl, fun r rest hq => ?_, fun hq => ?_, fun k hk => ?_, rfl,
    fun p hp => ?_⟩
  · simp [Env.draw_of_queued hq]
  · simp [Env.draw_of_empty hq]
  · have hkx : k ≠ x := by simpa using hk
    simp [hkx]
  · cases p <;> simp_all [Part.Same]

end Sys2Proof.Machine

/-! The memory family (spec/20_memory.md): fetch, the protected addresses, and what a load or a fetch reads after a store. -/

namespace Sys2Proof.Machine

/-! ### The bytes below 0x200 (R65; spec/70_reset_and_hazards.md R283) -/

/-- A store whose checks pass under protection lies at or above 0x200. -/
theorem guardedStore_readByte_low {i : Instr} {base n a : Nat} {bytes : List Byte} {s body t : State}
    (hp : s.cfg.protectLowMemory = true) (h : guarded i true base n s body = .next t) (hn : 0 < n)
    (hbody : body.readByte a = (s.writeBytes base bytes).readByte a) (ha : a < 0x200) : t.readByte a = s.readByte a := by
  obtain ⟨hff, rfl⟩ | ⟨_, _, _, rfl⟩ := guarded_body_or_latched h
  · have hbase : 0x200 ≤ base := (firstFailure_none_bound hff hn).2 rfl hp
    rw [hbody, State.readByte_writeBytes_outside s (.inl (by omega))]
  · rfl

theorem exec_readByte_low {i : Instr} {s t : State} {a : Nat} (hp : s.cfg.protectLowMemory = true)
    (h : exec i s = .next t) (ha : a < 0x200) : t.readByte a = s.readByte a := by
  obtain hmem | ⟨x, rfl | rfl⟩ := exec_mem_or_store h
  · exact State.readByte_congr hmem (exec_cfg h) a
  · exact guardedStore_readByte_low (bytes := bcdDigits (s.reg x)) hp h (by decide) (by simp) ha
  · exact guardedStore_readByte_low (bytes := s.blockRegs x) hp h (Nat.succ_pos _) (by simp) ha

theorem cycle_readByte_low {s t : State} {a : Nat} (hp : s.cfg.protectLowMemory = true)
    (h : cycle s = .next t) (ha : a < 0x200) : t.readByte a = s.readByte a := by
  obtain rfl | ⟨-, ⟨_, _, _, rfl⟩ | ⟨-, ⟨i, hi⟩ | rfl⟩⟩ := cycle_next h
  · rfl
  · rfl
  · exact exec_readByte_low (s := s.closeLoad) hp hi ha
  · rfl

/-- LOAD writes from 0x200 on, protection or not. -/
theorem State.load_readByte_low (s : State) (image : List Byte) {a : Nat} (ha : a < 0x200) :
    (s.load image).readByte a = s.readByte a := by
  unfold State.load
  split
  · rfl
  · exact State.readByte_writeBytes_outside s (.inl ha)

/-- Under protection a host operation leaves a byte below 0x200 alone, and a construction gives it its construction value. -/
theorem hostOp_readByte_low {op : HostOp} {s t : State} {a : Nat} (hp : s.cfg.protectLowMemory = true)
    (h : hostOp op s = .next t) (ha : a < 0x200) : t.readByte a = s.readByte a ∨ t.readByte a = unlisted s.cfg a := by
  cases op with
  | cycle => exact .inl (cycle_readByte_low hp h ha)
  | load image => exact .inl (by rw [hostOp_load_next h, State.load_readByte_low s image ha])
  | tick => cases h; exact .inl rfl
  | setKey k b => cases h; exact .inl rfl
  | construct => cases h; exact .inr (State.readByte_construct _ _ a)

/-- Settles O20: a step is one host operation, and each leaves the low bytes alone or constructs them anew. -/
theorem lowMemoryKeepsItsConstructionBytes : Obligations.LowMemoryKeepsItsConstructionBytes := by
  intro s t hp hlow h a ha
  obtain ⟨op, e, he⟩ := step_eq_hostOp s
  rw [he] at h
  obtain hsame | hnew := hostOp_readByte_low (s := s.setEnv e) hp h ha
  · exact hsame.trans (hlow a ha)
  · exact hnew

/-! ### What a completed store leaves in memory (spec/43_index_memory.md R184, R185) -/

/-- A guarded instruction that leaves no fault passed its checks and answered its body. -/
theorem guarded_completed {i : Instr} {w : Bool} {base n : Nat} {s body t : State}
    (h : guarded i w base n s body = .next t) (hf : t.fault = none) :
    firstFailure s.cfg w base n = none ∧ t = body := by
  obtain hbody | ⟨_, _, _, rfl⟩ := guarded_body_or_latched h
  · exact hbody
  · cases hf

theorem execLdMemVx_readByte {x : Nibble} {s t : State} (h : execLdMemVx x s = .next t) (hf : t.fault = none) (a : Nat) :
    t.readByte a = s.byteUnder s.i.toNat (s.blockRegs x) a := by
  obtain ⟨-, rfl⟩ := guarded_completed h hf
  exact State.readByte_writeBytes_eq_byteUnder s s.i.toNat (s.blockRegs x) a

theorem execLdB_readByte {x : Nibble} {s t : State} (h : execLdB x s = .next t) (hf : t.fault = none) (a : Nat) :
    t.readByte a = s.byteUnder s.i.toNat (bcdDigits (s.reg x)) a := by
  obtain ⟨-, rfl⟩ := guarded_completed h hf
  exact State.readByte_writeBytes_eq_byteUnder s s.i.toNat (bcdDigits (s.reg x)) a

/-! ### A block load after a block store (R70; spec/43_index_memory.md R185, R186) -/

/-- Addresses that may be written may be read. -/
theorem firstFailure_read_of_write {c : Config} {base n : Nat} (h : firstFailure c true base n = none) :
    firstFailure c false base n = none :=
  firstFailure_eq_none.mpr fun i hi =>
    check_eq_none.mpr ⟨(check_eq_none.mp (firstFailure_eq_none.mp h i hi)).1, fun hw => nomatch hw⟩

theorem State.byteUnder_blockRegs (s : State) {x k : Nibble} (hk : k.toNat ≤ x.toNat) (base : Nat) :
    s.byteUnder base (s.blockRegs x) (base + k.toNat) = s.reg k := by
  have hlen : k.toNat < (s.blockRegs x).length := by rw [s.length_blockRegs]; omega
  rw [← State.readByte_writeBytes_eq_byteUnder, State.readByte_writeBytes_inside s hlen, s.getElem_blockRegs x k hlen]

/-- Settles O42: the load's checks pass where the store's did, and each byte it loads is the register stored there. -/
theorem blockLoadReadsBackABlockStore : Obligations.BlockLoadReadsBackABlockStore := by
  intro x s t v _ h hf
  obtain ⟨hff, ht⟩ := guarded_completed h hf
  have hcfg : t.cfg = s.cfg := exec_cfg h
  refine ⟨_, guarded_of_none (by simpa [hcfg, State.base] using firstFailure_read_of_write hff), ?_, fun k => ?_⟩
  · simp [ht, State.indexPlus, State.base]
  · simp only [State.reg_advance, State.reg_setI, State.reg_setRegs, State.getElem_loadedRegs, State.setI_i,
      State.readByte_setI, State.readByte_setRegs]
    split
    · next hk => rw [execLdMemVx_readByte h hf, s.byteUnder_blockRegs hk]
    · rfl

/-! ### A fetch after a store (R73) -/

theorem State.eq_blockRegs {s : State} {x : Nibble} {bytes : List Byte} (hlen : bytes.length = x.toNat + 1)
    (hbytes : ∀ (k : Nibble) (h : k.toNat < bytes.length), bytes[k.toNat]'h = s.reg k) : bytes = s.blockRegs x := by
  refine List.ext_getElem (by simp [hlen]) fun n hn hn' => ?_
  obtain ⟨k, rfl⟩ : ∃ k : Nibble, n = k.toNat := ⟨BitVec.ofNat 4 n, by rw [BitVec.toNat_ofNat]; omega⟩
  rw [hbytes k hn, s.getElem_blockRegs x k hn']

theorem bcdDigits_toNat (b : Byte) :
    (bcdDigits b).map BitVec.toNat = [b.toNat / 100, b.toNat / 10 % 10, b.toNat % 10] := by
  have := b.isLt
  simp only [bcdDigits, List.map_cons, List.map_nil, BitVec.toNat_ofNat, List.cons.injEq, and_true]
  omega

theorem eq_bcdDigits {b : Byte} {bytes : List Byte}
    (h : bytes.map BitVec.toNat = [b.toNat / 100, b.toNat / 10 % 10, b.toNat % 10]) : bytes = bcdDigits b :=
  List.map_injective_iff.mpr (fun _ _ => BitVec.eq_of_toNat_eq) (h.trans (bcdDigits_toNat b).symm)

/-- Settles O43: a fetch reads the two bytes at P, and each reads as the store left it. -/
theorem fetchSeesEarlierStores : Obligations.FetchSeesEarlierStores := by
  intro i s t bytes _ h hf hstored p hp
  have hread (a : Nat) : t.readByte a = s.byteUnder s.i.toNat bytes a := by
    obtain ⟨x, rfl, hlen, hregs⟩ | ⟨x, rfl, hdigits⟩ := hstored
    · rw [execLdMemVx_readByte h hf, State.eq_blockRegs hlen hregs]
    · rw [execLdB_readByte h hf, eq_bcdDigits hdigits]
  rw [State.fetch_of_le (s := t.setPc p) hp]
  simp only [State.setPc_pc, State.readByte_setPc, hread, wordOfBytes]

/-! ### Fetch and decode (R63, R66, R67; spec/30_encoding.md R93, R95) -/

/-- Settles O6, by running the decoder on the eight words. -/
theorem writtenOutWordsDecode : Obligations.WrittenOutWordsDecode := by
  unfold Obligations.WrittenOutWordsDecode
  decide

theorem execWord_of_instr {op : Word} {i : Instr} (h : decode op = .instr i) (s : State) : execWord op s = exec i s := by
  simp [execWord, h]

theorem cycle_of_decodeBytes {s : State} {i : Instr} (hf : s.fault = none) (hpc : s.pc.toNat ≤ 0xFFE)
    (hi : decodeBytes (s.readByte s.pc.toNat) (s.readByte (s.pc.toNat + 1)) = .instr i) :
    cycle s = exec i s.closeLoad := by
  rw [cycle_of_word hf (State.fetch_of_le hpc), execWord_of_instr hi]

/-- Settles O7: either way the step is a Cycle, of the machine with the CYCLE taken off the queue. -/
theorem stepRunsTheDecodedInstruction : Obligations.StepRunsTheDecodedInstruction := by
  intro s i hf hpc hi
  refine ⟨fun hops => ?_, fun rest hops => ?_⟩
  · rw [step_of_empty hops]
    exact cycle_of_decodeBytes hf hpc hi
  · rw [step_of_cons hops]
    exact cycle_of_decodeBytes (s := s.setEnv { s.env with ops := rest }) hf hpc hi

/-- Settles O9: the fetch answers the failing address, and the Cycle raises it for the machine with LOAD closed. -/
theorem fetchAboveTheTopFaults : Obligations.FetchAboveTheTopFaults := by
  intro s hf hpc
  rw [cycle_of_outOfRange hf (State.fetch_of_gt hpc)]
  exact raise_raises _ _ _ s.closeLoad

end Sys2Proof.Machine

/-! The encoding family (spec/30_encoding.md): decoding and encoding are inverse, the 35 patterns decode with their fields, the rows of
the opcode table are disjoint, and the words outside them are the five groups of R97. -/

namespace Sys2Proof

/-! ### A word is equal to a packed word when its fields are -/

theorem eq_packNNN_iff {op : Word} {t : Nibble} {nnn : Addr12} : op = packNNN t nnn ↔ opT op = t ∧ opNNN op = nnn :=
  ⟨by rintro rfl; simp, by rintro ⟨rfl, rfl⟩; exact (packNNN_fields op).symm⟩

theorem eq_packXKK_iff {op : Word} {t x : Nibble} {kk : Byte} :
    op = packXKK t x kk ↔ opT op = t ∧ opX op = x ∧ opKK op = kk :=
  ⟨by rintro rfl; simp, by rintro ⟨rfl, rfl, rfl⟩; exact (packXKK_fields op).symm⟩

theorem eq_packXYN_iff {op : Word} {t x y n : Nibble} :
    op = packXYN t x y n ↔ opT op = t ∧ opX op = x ∧ opY op = y ∧ opN op = n :=
  ⟨by rintro rfl; simp, by rintro ⟨rfl, rfl, rfl, rfl⟩; exact (packXYN_fields op).symm⟩

theorem packNNN_of_family {op : Word} {t : Nibble} (hT : opT op = t) : packNNN t (opNNN op) = op :=
  (eq_packNNN_iff.mpr ⟨hT, rfl⟩).symm

theorem packXKK_of_family {op : Word} {t : Nibble} {kk : Byte} (hT : opT op = t) (hKK : opKK op = kk) :
    packXKK t (opX op) kk = op :=
  (eq_packXKK_iff.mpr ⟨hT, rfl, hKK⟩).symm

theorem packXYN_of_family {op : Word} {t n : Nibble} (hT : opT op = t) (hN : opN op = n) :
    packXYN t (opX op) (opY op) n = op :=
  (eq_packXYN_iff.mpr ⟨hT, rfl, rfl, hN⟩).symm

/-! ### Decoding an encoded instruction (R93, R95) -/

/-- Row 1 leaves out the words of rows 2 and 3, and so does well-formedness. -/
theorem packNNN_zero_ne {nnn : Addr12} (hwf : (Instr.sys nnn).wf = true) :
    packNNN 0x0#4 nnn ≠ 0x00E0#16 ∧ packNNN 0x0#4 nnn ≠ 0x00EE#16 := by
  obtain ⟨hE0, hEE⟩ : nnn ≠ 0x0E0#12 ∧ nnn ≠ 0x0EE#12 := by simpa [Instr.wf] using hwf
  exact ⟨fun h => hE0 (eq_packNNN_iff.mp h.symm).2.symm, fun h => hEE (eq_packNNN_iff.mp h.symm).2.symm⟩

theorem decode_sys {op : Word} (hT : opT op = 0x0#4) (hE0 : op ≠ 0x00E0) (hEE : op ≠ 0x00EE) :
    decode op = .instr (.sys (opNNN op)) := by
  have h : decodeFamily0 op = .instr (.sys (opNNN op)) := (if_neg hE0).trans (if_neg hEE)
  simp [decode, hT, h]

theorem decode_encode {i : Instr} (hwf : i.wf = true) : decode (encode i) = .instr i := by
  cases i with
  | sys nnn =>
    obtain ⟨hE0, hEE⟩ := packNNN_zero_ne hwf
    simpa [encode] using decode_sys (opT_packNNN 0x0 nnn) hE0 hEE
  | cls | ret => decide
  | ldReg x y | orReg x y | andReg x y | xorReg x y | addReg x y | sub x y | shr x y | subn x y | shl x y =>
    simp [encode, decode, decodeFamily8]
  | skp x | sknp x => simp [encode, decode, decodeFamilyE]
  | ldVxDt x | ldVxK x | ldDtVx x | ldStVx x | addI x | ldF x | ldB x | ldMemVx x | ldVxMem x =>
    simp [encode, decode, decodeFamilyF]
  | _ => simp [encode, decode]

/-- Settles O1: the fields of the packed word are the operands, and the dispatch is on them. -/
theorem decodeOfEncodeIsTheInstruction : Obligations.DecodeOfEncodeIsTheInstruction := fun _ => decode_encode

/-! ### What a word decodes to (R93, R97) -/

/-- The word is in one of the five groups of R97. -/
def UnknownWord (op : Word) : Prop :=
  (opT op = 0x5#4 ∧ opN op ≠ 0x0#4) ∨ (opT op = 0x9#4 ∧ opN op ≠ 0x0#4) ∨
    (opT op = 0x8#4 ∧ opN op ∈ [0x8#4, 0x9#4, 0xA#4, 0xB#4, 0xC#4, 0xD#4, 0xF#4]) ∨
    (opT op = 0xE#4 ∧ opKK op ∉ [0x9E#8, 0xA1#8]) ∨
    (opT op = 0xF#4 ∧ opKK op ∉ [0x07#8, 0x0A#8, 0x15#8, 0x18#8, 0x1E#8, 0x29#8, 0x33#8, 0x55#8, 0x65#8])

/-- R97 lists the values of N that family 0x8 has no row for. -/
theorem family8_unlisted_iff {n : Nibble} :
    n ∉ [0x0#4, 0x1#4, 0x2#4, 0x3#4, 0x4#4, 0x5#4, 0x6#4, 0x7#4, 0xE#4] ↔
      n ∈ [0x8#4, 0x9#4, 0xA#4, 0xB#4, 0xC#4, 0xD#4, 0xF#4] := by
  revert n
  decide

/-- What the answer of the decoder says of the word: an instruction is well formed and has this word, and `Unknown` names the word,
which is in a group of R97. -/
def Decoded.MeaningOf (op : Word) : Decoded → Prop
  | .instr i => encode i = op ∧ i.wf = true
  | .unknown w => w = op ∧ UnknownWord op

theorem decodeFamily0_meaning {op : Word} (hT : opT op = 0x0#4) : (decodeFamily0 op).MeaningOf op := by
  unfold decodeFamily0
  split
  · next hE0 => exact ⟨hE0.symm, rfl⟩
  split
  · next hEE => exact ⟨hEE.symm, rfl⟩
  next hE0 hEE =>
  have hpack : packNNN 0x0 (opNNN op) = op := packNNN_of_family hT
  refine ⟨hpack, ?_⟩
  have hnE0 : opNNN op ≠ 0x0E0#12 := fun h => hE0 (by rw [← hpack, h]; rfl)
  have hnEE : opNNN op ≠ 0x0EE#12 := fun h => hEE (by rw [← hpack, h]; rfl)
  simp [Instr.wf, hnE0, hnEE]

theorem decodeFamily8_meaning {op : Word} (hT : opT op = 0x8#4) : (decodeFamily8 op).MeaningOf op := by
  unfold decodeFamily8
  split
  case h_10 => exact ⟨rfl, .inr (.inr (.inl ⟨hT, family8_unlisted_iff.mp (by simp_all)⟩))⟩
  all_goals next hN => exact ⟨packXYN_of_family hT hN, rfl⟩

theorem decodeFamilyE_meaning {op : Word} (hT : opT op = 0xE#4) : (decodeFamilyE op).MeaningOf op := by
  unfold decodeFamilyE
  split
  case h_3 => exact ⟨rfl, .inr (.inr (.inr (.inl ⟨hT, by simp_all⟩)))⟩
  all_goals next hKK => exact ⟨packXKK_of_family hT hKK, rfl⟩

theorem decodeFamilyF_meaning {op : Word} (hT : opT op = 0xF#4) : (decodeFamilyF op).MeaningOf op := by
  unfold decodeFamilyF
  split
  case h_10 => exact ⟨rfl, .inr (.inr (.inr (.inr ⟨hT, by simp_all⟩)))⟩
  all_goals next hKK => exact ⟨packXKK_of_family hT hKK, rfl⟩

theorem decode_meaning (op : Word) : (decode op).MeaningOf op := by
  unfold decode
  split
  case h_1 hT => exact decodeFamily0_meaning hT
  case h_2 hT | h_3 hT | h_11 hT | h_12 hT => exact ⟨packNNN_of_family hT, rfl⟩
  case h_4 hT | h_5 hT | h_7 hT | h_8 hT | h_13 hT => exact ⟨packXKK_of_family hT rfl, rfl⟩
  case h_6 hT =>
    split
    · next hN => exact ⟨packXYN_of_family hT hN, rfl⟩
    · next hN => exact ⟨rfl, .inl ⟨hT, hN⟩⟩
  case h_9 hT => exact decodeFamily8_meaning hT
  case h_10 hT =>
    split
    · next hN => exact ⟨packXYN_of_family hT hN, rfl⟩
    · next hN => exact ⟨rfl, .inr (.inl ⟨hT, hN⟩)⟩
  case h_14 hT => exact ⟨packXYN_of_family hT rfl, rfl⟩
  case h_15 hT => exact decodeFamilyE_meaning hT
  case h_16 =>
    refine decodeFamilyF_meaning ?_
    generalize opT op = t at *
    revert t
    decide

theorem decode_instr {op : Word} {i : Instr} (h : decode op = .instr i) : encode i = op ∧ i.wf = true := by
  have hmeaning := decode_meaning op
  rwa [h] at hmeaning

theorem decode_unknown {op w : Word} (h : decode op = .unknown w) : w = op ∧ UnknownWord op := by
  have hmeaning := decode_meaning op
  rwa [h] at hmeaning

/-- Settles O2: each branch of the decoder answers the instruction whose packed word is this one. -/
theorem encodeOfDecodeIsTheWord : Obligations.EncodeOfDecodeIsTheWord := fun _ _ => decode_instr

theorem decode_of_encode_eq {op : Word} {i : Instr} (h : encode i = op) (hwf : i.wf = true) : decode op = .instr i :=
  h ▸ decode_encode hwf

theorem decode_eq_instr_iff {op : Word} {i : Instr} : decode op = .instr i ↔ encode i = op ∧ i.wf = true :=
  ⟨decode_instr, fun h => decode_of_encode_eq h.1 h.2⟩

/-! ### The patterns, their fields as arithmetic (R91, R95) -/

theorem opT_eq_ofNat (op : Word) : opT op = BitVec.ofNat 4 (op.toNat / 4096) := by
  rw [← opT_toNat, BitVec.ofNat_toNat, BitVec.setWidth_eq]

theorem opX_eq_ofNat (op : Word) : opX op = BitVec.ofNat 4 (op.toNat / 256 % 16) := by
  simp [← BitVec.toNat_inj, opX_toNat]

theorem opY_eq_ofNat (op : Word) : opY op = BitVec.ofNat 4 (op.toNat / 16 % 16) := by
  simp [← BitVec.toNat_inj, opY_toNat]

theorem opN_eq_ofNat (op : Word) : opN op = BitVec.ofNat 4 (op.toNat % 16) := by
  simp [← BitVec.toNat_inj, opN_toNat]

theorem opKK_eq_ofNat (op : Word) : opKK op = BitVec.ofNat 8 (op.toNat % 256) := by
  simp [← BitVec.toNat_inj, opKK_toNat]

theorem opNNN_eq_ofNat (op : Word) : opNNN op = BitVec.ofNat 12 (op.toNat % 4096) := by
  simp [← BitVec.toNat_inj, opNNN_toNat]

theorem opT_of_div {op : Word} {t : Nat} (hT : op.toNat / 4096 = t) : opT op = BitVec.ofNat 4 t :=
  hT ▸ opT_eq_ofNat op

theorem decode_nnn {op : Word} {t : Nat} {i : Instr} (hi : encode i = packNNN (BitVec.ofNat 4 t) (opNNN op))
    (hwf : i.wf = true) (hT : op.toNat / 4096 = t) : decode op = .instr i :=
  decode_of_encode_eq (hi.trans (packNNN_of_family (opT_of_div hT))) hwf

theorem decode_xkk {op : Word} {t : Nat} {kk : Byte} {i : Instr} (hi : encode i = packXKK (BitVec.ofNat 4 t) (opX op) kk)
    (hwf : i.wf = true) (h : op.toNat / 4096 = t ∧ opKK op = kk) : decode op = .instr i :=
  decode_of_encode_eq (hi.trans (packXKK_of_family (opT_of_div h.1) h.2)) hwf

theorem decode_xyn {op : Word} {t : Nat} {n : Nibble} {i : Instr}
    (hi : encode i = packXYN (BitVec.ofNat 4 t) (opX op) (opY op) n) (hwf : i.wf = true)
    (h : op.toNat / 4096 = t ∧ opN op = n) : decode op = .instr i :=
  decode_of_encode_eq (hi.trans (packXYN_of_family (opT_of_div h.1) h.2)) hwf

/-- Settles O3: a word that matches a pattern is the word of the row's instruction with these fields.  Of the two `rfl` of a row, the
first reads its pattern off `encode` and the second is well-formedness. -/
theorem patternsDecodeWithTheirFields : Obligations.PatternsDecodeWithTheirFields := by
  intro op
  simp only [← opX_eq_ofNat, ← opY_eq_ofNat, ← opN_eq_ofNat, ← opKK_eq_ofNat, ← opNNN_eq_ofNat]
  exact ⟨fun ⟨hT, hE0, hEE⟩ => decode_sys (opT_of_div hT) hE0 hEE,
    fun h => decode_of_encode_eq h.symm rfl, fun h => decode_of_encode_eq h.symm rfl,
    decode_nnn rfl rfl, decode_nnn rfl rfl, fun hT => decode_xkk rfl rfl ⟨hT, rfl⟩, fun hT => decode_xkk rfl rfl ⟨hT, rfl⟩,
    decode_xyn rfl rfl, fun hT => decode_xkk rfl rfl ⟨hT, rfl⟩, fun hT => decode_xkk rfl rfl ⟨hT, rfl⟩,
    decode_xyn rfl rfl, decode_xyn rfl rfl, decode_xyn rfl rfl, decode_xyn rfl rfl, decode_xyn rfl rfl,
    decode_xyn rfl rfl, decode_xyn rfl rfl, decode_xyn rfl rfl, decode_xyn rfl rfl,
    decode_xyn rfl rfl, decode_nnn rfl rfl, decode_nnn rfl rfl,
    fun hT => decode_xkk rfl rfl ⟨hT, rfl⟩, fun hT => decode_xyn rfl rfl ⟨hT, rfl⟩,
    decode_xkk rfl rfl, decode_xkk rfl rfl, decode_xkk rfl rfl, decode_xkk rfl rfl, decode_xkk rfl rfl,
    decode_xkk rfl rfl, decode_xkk rfl rfl, decode_xkk rfl rfl, decode_xkk rfl rfl, decode_xkk rfl rfl, decode_xkk rfl rfl⟩

/-! ### The rows of the opcode table (R95, R96) -/

/-- A row whose pattern is taaa. -/
def OpRow.nnn (k : Nat) (t : Nibble) : OpRow := ⟨k, packNNN t 0, 0xF000#16, []⟩

/-- A row whose pattern is txkk with kk given. -/
def OpRow.xkk (k : Nat) (t : Nibble) (kk : Byte) : OpRow := ⟨k, packXKK t 0 kk, 0xF0FF#16, []⟩

/-- A row whose pattern is txyn with n given. -/
def OpRow.xyn (k : Nat) (t n : Nibble) : OpRow := ⟨k, packXYN t 0 0 n, 0xF00F#16, []⟩

@[simp] theorem opT_and (a b : Word) : opT (a &&& b) = opT a &&& opT b := BitVec.extractLsb'_and ..
@[simp] theorem opX_and (a b : Word) : opX (a &&& b) = opX a &&& opX b := BitVec.extractLsb'_and ..
@[simp] theorem opY_and (a b : Word) : opY (a &&& b) = opY a &&& opY b := BitVec.extractLsb'_and ..
@[simp] theorem opN_and (a b : Word) : opN (a &&& b) = opN a &&& opN b := BitVec.extractLsb'_and ..
@[simp] theorem opKK_and (a b : Word) : opKK (a &&& b) = opKK a &&& opKK b := BitVec.extractLsb'_and ..
@[simp] theorem opNNN_and (a b : Word) : opNNN (a &&& b) = opNNN a &&& opNNN b := BitVec.extractLsb'_and ..

theorem and_F000_eq_iff {op : Word} {t : Nibble} : op &&& 0xF000#16 = packNNN t 0#12 ↔ opT op = t := by
  have hT : opT 0xF000#16 = BitVec.allOnes 4 := by decide
  have hNNN : opNNN 0xF000#16 = 0 := by decide
  simp [eq_packNNN_iff, hT, hNNN, -BitVec.reduceAllOnes]

theorem and_F0FF_eq_iff {op : Word} {t : Nibble} {kk : Byte} :
    op &&& 0xF0FF#16 = packXKK t 0#4 kk ↔ opT op = t ∧ opKK op = kk := by
  have hT : opT 0xF0FF#16 = BitVec.allOnes 4 := by decide
  have hX : opX 0xF0FF#16 = 0 := by decide
  have hKK : opKK 0xF0FF#16 = BitVec.allOnes 8 := by decide
  simp [eq_packXKK_iff, hT, hX, hKK, -BitVec.reduceAllOnes]

theorem and_F00F_eq_iff {op : Word} {t n : Nibble} :
    op &&& 0xF00F#16 = packXYN t 0#4 0#4 n ↔ opT op = t ∧ opN op = n := by
  have hT : opT 0xF00F#16 = BitVec.allOnes 4 := by decide
  have hX : opX 0xF00F#16 = 0 := by decide
  have hY : opY 0xF00F#16 = 0 := by decide
  have hN : opN 0xF00F#16 = BitVec.allOnes 4 := by decide
  simp [eq_packXYN_iff, hT, hX, hY, hN, -BitVec.reduceAllOnes]

@[simp] theorem OpRow.matches_nnn (k : Nat) (t : Nibble) (op : Word) : (OpRow.nnn k t).matches op = (opT op == t) :=
  Bool.eq_iff_iff.mpr (by simp [OpRow.matches, OpRow.nnn, and_F000_eq_iff])

@[simp] theorem OpRow.matches_xkk (k : Nat) (t : Nibble) (kk : Byte) (op : Word) :
    (OpRow.xkk k t kk).matches op = (opT op == t && opKK op == kk) :=
  Bool.eq_iff_iff.mpr (by simp [OpRow.matches, OpRow.xkk, and_F0FF_eq_iff])

@[simp] theorem OpRow.matches_xyn (k : Nat) (t n : Nibble) (op : Word) :
    (OpRow.xyn k t n).matches op = (opT op == t && opN op == n) :=
  Bool.eq_iff_iff.mpr (by simp [OpRow.matches, OpRow.xyn, and_F00F_eq_iff])

@[simp] theorem OpRow.row_nnn (k : Nat) (t : Nibble) : (OpRow.nnn k t).row = k := rfl
@[simp] theorem OpRow.row_xkk (k : Nat) (t : Nibble) (kk : Byte) : (OpRow.xkk k t kk).row = k := rfl
@[simp] theorem OpRow.row_xyn (k : Nat) (t n : Nibble) : (OpRow.xyn k t n).row = k := rfl

/-- The rows whose pattern lies in a family of the opcode map (R94). -/
def familyRows (t : Nibble) : List OpRow := opcodeTable.filter (opT ·.pattern = t)

/-- Every mask covers T, so a row's words lie in its family. -/
theorem opT_mask_of_mem {r : OpRow} (hr : r ∈ opcodeTable) : opT r.mask = BitVec.allOnes 4 := by
  revert r
  decide

theorem opT_of_matches {r : OpRow} {op : Word} (hr : r ∈ opcodeTable) (h : r.matches op = true) : opT r.pattern = opT op := by
  obtain ⟨hmask, -⟩ : op &&& r.mask = r.pattern ∧ _ := by simpa [OpRow.matches] using h
  rw [← hmask, opT_and, opT_mask_of_mem hr, BitVec.and_allOnes]

theorem matchingRows_eq (op : Word) : matchingRows op = (familyRows (opT op)).filter (·.matches op) := by
  rw [matchingRows, familyRows, List.filter_filter]
  refine List.filter_congr fun r hr => ?_
  cases h : r.matches op with
  | false => simp
  | true => simp [opT_of_matches hr h]

theorem familyRows_0 : familyRows 0x0#4 =
    [⟨1, 0x0000#16, 0xF000#16, [0x00E0#16, 0x00EE#16]⟩, ⟨2, 0x00E0#16, 0xFFFF#16, []⟩, ⟨3, 0x00EE#16, 0xFFFF#16, []⟩] := by
  decide

theorem familyRows_8 : familyRows 0x8#4 =
    [.xyn 11 0x8 0x0, .xyn 12 0x8 0x1, .xyn 13 0x8 0x2, .xyn 14 0x8 0x3, .xyn 15 0x8 0x4, .xyn 16 0x8 0x5, .xyn 17 0x8 0x6,
      .xyn 18 0x8 0x7, .xyn 19 0x8 0xE] := by
  decide

theorem familyRows_E : familyRows 0xE#4 = [.xkk 25 0xE 0x9E, .xkk 26 0xE 0xA1] := by decide

theorem familyRows_F : familyRows 0xF#4 =
    [.xkk 27 0xF 0x07, .xkk 28 0xF 0x0A, .xkk 29 0xF 0x15, .xkk 30 0xF 0x18, .xkk 31 0xF 0x1E, .xkk 32 0xF 0x29,
      .xkk 33 0xF 0x33, .xkk 34 0xF 0x55, .xkk 35 0xF 0x65] := by
  decide

theorem familyRows_5 : familyRows 0x5#4 = [.xyn 8 0x5 0x0] := by decide

theorem familyRows_9 : familyRows 0x9#4 = [.xyn 20 0x9 0x0] := by decide

theorem row_of_nnn {op : Word} {k : Nat} {t : Nibble} (hT : opT op = t) (hrows : familyRows t = [.nnn k t]) :
    (matchingRows op).map OpRow.row = [k] := by
  rw [matchingRows_eq, hT, hrows]
  simp [hT]

theorem row_encode_sys {nnn : Addr12} (hwf : (Instr.sys nnn).wf = true) :
    (matchingRows (encode (.sys nnn))).map OpRow.row = [1] := by
  obtain ⟨hE0, hEE⟩ := packNNN_zero_ne hwf
  have hmask (op : Word) : op &&& 0xFFFF#16 = op := BitVec.and_allOnes
  have hfamily : packNNN 0x0#4 nnn &&& 0xF000#16 = 0x0000#16 := and_F000_eq_iff.mpr (opT_packNNN 0x0 nnn)
  simp [encode, matchingRows_eq, familyRows_0, OpRow.matches, hE0, hEE, hmask, hfamily]

/-- A well-formed instruction's word matches the instruction's row alone. -/
theorem row_encode {i : Instr} (hwf : i.wf = true) : (matchingRows (encode i)).map OpRow.row = [i.row] := by
  cases i with
  | sys nnn => exact row_encode_sys hwf
  | cls | ret => decide
  | jp nnn | call nnn | ldI nnn | jpV0 nnn => exact row_of_nnn (opT_packNNN ..) rfl
  | seImm x kk | sneImm x kk | ldImm x kk | addImm x kk | rnd x kk => exact row_of_nnn (opT_packXKK ..) rfl
  | drw x y n => exact row_of_nnn (opT_packXYN ..) rfl
  | seReg x y => simp [encode, matchingRows_eq, familyRows_5, Instr.row]
  | sneReg x y => simp [encode, matchingRows_eq, familyRows_9, Instr.row]
  | ldReg x y | orReg x y | andReg x y | xorReg x y | addReg x y | sub x y | shr x y | subn x y | shl x y =>
    simp [encode, matchingRows_eq, familyRows_8, Instr.row]
  | skp x | sknp x => simp [encode, matchingRows_eq, familyRows_E, Instr.row]
  | ldVxDt x | ldVxK x | ldDtVx x | ldStVx x | addI x | ldF x | ldB x | ldMemVx x | ldVxMem x =>
    simp [encode, matchingRows_eq, familyRows_F, Instr.row]

/-! ### The words of no row (R97) -/

theorem unknownWord_iff (op : Word) : UnknownWord op ↔
    (op.toNat / 4096 = 0x5 ∧ op.toNat % 16 ≠ 0) ∨
      (op.toNat / 4096 = 0x9 ∧ op.toNat % 16 ≠ 0) ∨
      (op.toNat / 4096 = 0x8 ∧ op.toNat % 16 ∈ [0x8, 0x9, 0xA, 0xB, 0xC, 0xD, 0xF]) ∨
      (op.toNat / 4096 = 0xE ∧ op.toNat % 256 ∉ [0x9E, 0xA1]) ∨
      (op.toNat / 4096 = 0xF ∧ op.toNat % 256 ∉ [0x07, 0x0A, 0x15, 0x18, 0x1E, 0x29, 0x33, 0x55, 0x65]) := by
  simp [UnknownWord, ← opT_toNat, ← opN_toNat, ← opKK_toNat, ← BitVec.toNat_inj]

theorem matchingRows_of_unknownWord {op : Word} (h : UnknownWord op) : matchingRows op = [] := by
  rw [matchingRows_eq]
  obtain ⟨hT, hN⟩ | ⟨hT, hN⟩ | ⟨hT, hN⟩ | ⟨hT, hKK⟩ | ⟨hT, hKK⟩ := h
  · rw [hT, familyRows_5]
    simpa [hT] using hN
  · rw [hT, familyRows_9]
    simpa [hT] using hN
  · rw [hT, familyRows_8]
    simpa [hT] using family8_unlisted_iff.mpr hN
  · rw [hT, familyRows_E]
    simpa [hT] using hKK
  · rw [hT, familyRows_F]
    simpa [hT] using hKK

theorem decode_of_unknownWord {op : Word} (h : UnknownWord op) : decode op = .unknown op := by
  cases hd : decode op with
  | unknown w => rw [(decode_unknown hd).1]
  | instr i =>
    obtain ⟨rfl, hwf⟩ := decode_instr hd
    have hrow := row_encode hwf
    rw [matchingRows_of_unknownWord h] at hrow
    cases hrow

/-- Settles O5: a word of a group matches no row, and a word that decodes to an instruction matches one. -/
theorem unknownWordsAreTheListedOnes : Obligations.UnknownWordsAreTheListedOnes := by
  intro op w
  rw [← unknownWord_iff]
  refine ⟨decode_unknown, ?_⟩
  rintro ⟨rfl, h⟩
  exact decode_of_unknownWord h

/-! ### Each word has one row or none (R96) -/

theorem row_of_decode {op : Word} {i : Instr} (h : decode op = .instr i) : ∃ r, matchingRows op = [r] ∧ r.row = i.row := by
  obtain ⟨rfl, hwf⟩ := decode_instr h
  exact List.map_eq_singleton_iff.mp (row_encode hwf)

theorem instr_or_unknown (op : Word) :
    (∃ i r, decode op = .instr i ∧ matchingRows op = [r] ∧ r.row = i.row) ∨
      (decode op = .unknown op ∧ matchingRows op = []) := by
  cases h : decode op with
  | instr i =>
    obtain ⟨r, hr⟩ := row_of_decode h
    exact .inl ⟨i, r, rfl, hr⟩
  | unknown w =>
    obtain ⟨rfl, hw⟩ := decode_unknown h
    exact .inr ⟨rfl, matchingRows_of_unknownWord hw⟩

theorem matches_row_iff {op : Word} {k : Nat} :
    (∃ r, matchingRows op = [r] ∧ r.row = k) ↔ ∃ i, decode op = .instr i ∧ i.row = k := by
  constructor
  · rintro ⟨r, hr, rfl⟩
    obtain ⟨i, r', hi, hr', hrow⟩ | ⟨-, hnil⟩ := instr_or_unknown op
    · obtain rfl : r = r' := by simpa [hr] using hr'
      exact ⟨i, hi, hrow.symm⟩
    · simp [hr] at hnil
  · rintro ⟨i, hi, rfl⟩
    exact row_of_decode hi

theorem row_eq_one_iff {i : Instr} : i.row = 1 ↔ ∃ nnn, i = .sys nnn := by
  cases i <;> simp [Instr.row]

theorem row_eq_two_iff {i : Instr} : i.row = 2 ↔ i = .cls := by
  cases i <;> simp [Instr.row]

theorem row_eq_three_iff {i : Instr} : i.row = 3 ↔ i = .ret := by
  cases i <;> simp [Instr.row]

/-- The words of row 1 (R95). -/
theorem decode_sys_iff {op : Word} :
    (∃ nnn, decode op = .instr (.sys nnn)) ↔ op.toNat ≤ 0x0FFF ∧ op ≠ 0x00E0 ∧ op ≠ 0x00EE := by
  constructor
  · rintro ⟨nnn, h⟩
    obtain ⟨rfl, hwf⟩ := decode_instr h
    have hle : (packNNN 0x0#4 nnn).toNat ≤ 0x0FFF := by
      rw [packNNN_toNat, BitVec.toNat_ofNat]
      omega
    exact ⟨hle, packNNN_zero_ne hwf⟩
  · rintro ⟨hle, hE0, hEE⟩
    exact ⟨_, decode_sys (opT_of_div (by omega)) hE0 hEE⟩

theorem decode_cls_iff {op : Word} : decode op = .instr .cls ↔ op = 0x00E0 :=
  decode_eq_instr_iff.trans ⟨fun h => h.1.symm, fun h => ⟨h.symm, rfl⟩⟩

theorem decode_ret_iff {op : Word} : decode op = .instr .ret ↔ op = 0x00EE :=
  decode_eq_instr_iff.trans ⟨fun h => h.1.symm, fun h => ⟨h.symm, rfl⟩⟩

/-- Settles O4: the row a word matches is the row of the instruction it decodes to, and rows 1 to 3 have one instruction each. -/
theorem tableRowsAreDisjointAndCover : Obligations.TableRowsAreDisjointAndCover := by
  refine ⟨instr_or_unknown, fun op => ?_, fun op => ?_, fun op => ?_⟩
  · rw [matches_row_iff, ← decode_sys_iff]
    simp [row_eq_one_iff]
  · rw [matches_row_iff, ← decode_cls_iff]
    simp [row_eq_two_iff]
  · rw [matches_row_iff, ← decode_ret_iff]
    simp [row_eq_three_iff]

end Sys2Proof

/-! The control-flow family (spec/41_control_flow.md): SYS, the jumps, CALL and RET, nested calls, the four register skips, and the jump
to itself. -/

namespace Sys2Proof.Machine

/-! ### Instructions that write PC alone (R123, R125, R127) -/

theorem unchangedExcept_setPc (s : State) (w : Word) : UnchangedExcept [.pc] s (s.setPc w) := by
  refine ⟨rfl, fun p hp => ?_⟩
  cases p <;> simp_all [Part.Same]

theorem raises_of_eq {r : Result} {code : FaultCode} {op : Option Word} {addr : Option Nat} {s : State}
    (h : r = raise code op addr s) : Raises r s code op addr :=
  h ▸ raise_raises code op addr s

theorem execSys_of_nop {nnn : Addr12} {s : State} (h : s.cfg.sysPolicy = .nop) : execSys nnn s = .next s.advance := by
  simp [execSys, h]

theorem execSys_of_halt {nnn : Addr12} {s : State} (h : s.cfg.sysPolicy = .halt) :
    execSys nnn s = raise .sysUnsupported (some (encode (.sys nnn))) (some nnn.toNat) s := by
  simp [execSys, h]

/-- Settles O24, by the policy; the two addresses left out are those of rows 2 and 3. -/
theorem sysFollowsItsPolicy : Obligations.SysFollowsItsPolicy := by
  refine fun nnn s => ⟨fun hE0 hEE => ?_, fun hnop => ?_, fun hhalt => ?_⟩
  · exact decode_encode (i := .sys nnn) (by simpa [Instr.wf] using ⟨hE0, hEE⟩)
  · exact ⟨s.advance, execSys_of_nop hnop, rfl, unchangedExcept_setPc s _⟩
  · exact raises_of_eq (execSys_of_halt hhalt)

/-- The sum of `JP V0` is at most 0xFFF + 0xFF, so 16 bits hold it exactly. -/
theorem jumpV0_toNat (nnn : Addr12) (b : Byte) :
    (BitVec.ofNat 16 (nnn.toNat + b.toNat)).toNat = nnn.toNat + b.toNat := by
  rw [BitVec.toNat_ofNat]
  omega

/-- Settles O25: the widened address and the exact sum are what PC takes. -/
theorem jumpsSetOnlyThePc : Obligations.JumpsSetOnlyThePc := fun nnn s =>
  ⟨decode_encode (i := .jp nnn) rfl, decode_encode (i := .jpV0 nnn) rfl,
    ⟨_, rfl, zext16_toNat nnn, unchangedExcept_setPc s _⟩,
    ⟨_, rfl, jumpV0_toNat nnn (s.reg 0), unchangedExcept_setPc s _⟩⟩

/-! ### The register skips (R128 to R131) -/

theorem skipIf_of_iff (s : State) {c : Bool} {P : Prop} [Decidable P] (h : c = true ↔ P) :
    ∃ t, (.next (s.skipIf c) : Result) = .next t ∧ t.pc = (if P then s.pc + 4 else s.pc + 2) ∧ UnchangedExcept [.pc] s t :=
  ⟨_, rfl, by simp only [State.skipIf_pc, h], unchangedExcept_setPc s _⟩

/-- Settles O29: each skip is `skipIf` of the test its rule names. -/
theorem skipsTestRegisters : Obligations.SkipsTestRegisters := fun x y kk s =>
  ⟨decode_encode (i := .seImm x kk) rfl, decode_encode (i := .sneImm x kk) rfl,
    decode_encode (i := .seReg x y) rfl, decode_encode (i := .sneReg x y) rfl,
    skipIf_of_iff s beq_iff_eq, skipIf_of_iff s bne_iff_ne, skipIf_of_iff s beq_iff_eq, skipIf_of_iff s bne_iff_ne⟩

/-! ### CALL and RET (R124, R126) -/

theorem exec_call_overflows (nnn : Addr12) {s : State} (hsp : s.sp.val = 16) :
    Raises (exec (.call nnn) s) s .stackOverflow (some (packNNN 0x2 nnn)) none :=
  raises_of_eq (execCall_of_full hsp)

/-- Settles O26, by whether the stack is full. -/
theorem callPushesTheReturnAddress : Obligations.CallPushesTheReturnAddress := by
  refine fun nnn s => ⟨decode_encode (i := .call nnn) rfl, fun hsp => ?_, exec_call_overflows nnn⟩
  refine ⟨_, execCall_of_lt hsp, zext16_toNat nnn, rfl, fun j => ?_, rfl, fun p hp => ?_⟩
  · simp only [Vector.getElem_set, eq_comm (a := s.sp.val)]
  · cases p <;> simp_all [Part.Same, State.reg, State.readByte]

/-- Settles O27, by whether the stack is empty. -/
theorem retTakesTheTopOfTheStack : Obligations.RetTakesTheTopOfTheStack := by
  refine fun s => ⟨decode_encode (i := .ret) rfl, fun hsp => ?_, fun hsp => ?_⟩
  · refine ⟨_, execRet_of_pos hsp, rfl, fun j hj => ?_, rfl, fun p hp => ?_⟩
    · simp only [hj]
    · cases p <;> simp_all [Part.Same, State.reg, State.readByte]
  · exact raises_of_eq (execRet_of_zero hsp)

/-! ### Nested calls (R133) -/

/-- The return addresses on the stack, the oldest first: the slots below SP (spec/10_state.md R26). -/
def State.returnAddresses (s : State) : List Word := s.stack.toList.take s.sp.val

theorem State.length_returnAddresses (s : State) : s.returnAddresses.length = s.sp.val := by
  have := s.sp.isLt
  simp only [State.returnAddresses, List.length_take, Vector.length_toList]
  omega

theorem State.returnAddresses_of_full {s : State} (h : s.sp.val = 16) : s.returnAddresses = s.stack.toList := by
  simp [State.returnAddresses, h, List.take_of_length_le]

/-- CALL with room on the stack puts P + 2 above the return addresses there. -/
theorem exec_call_returnAddresses (nnn : Addr12) {s : State} (hsp : s.sp.val < 16) :
    ∃ t, exec (.call nnn) s = .next t ∧ t.fault = s.fault ∧ t.returnAddresses = s.returnAddresses ++ [s.pc + 2] := by
  refine ⟨_, execCall_of_lt hsp, rfl, ?_⟩
  simp only [State.returnAddresses, Vector.toList_set]
  rw [List.take_add_one, List.take_set_of_le (Nat.le_refl _)]
  simp [hsp]

theorem State.returnAddresses_of_pos {s : State} (hsp : 0 < s.sp.val) :
    s.returnAddresses = s.stack.toList.take (s.sp.val - 1) ++ [s.stack[s.sp.val - 1]'(by omega)] := by
  have htop := List.take_append_getElem (l := s.stack.toList) (i := s.sp.val - 1) (by rw [Vector.length_toList]; omega)
  rw [Nat.sub_add_cancel hsp] at htop
  exact htop.symm

/-- RET takes the last return address off the stack and goes to it. -/
theorem exec_ret_returnAddresses {s : State} {ws : List Word} {w : Word} (h : s.returnAddresses = ws ++ [w]) :
    ∃ t, exec .ret s = .next t ∧ t.fault = s.fault ∧ t.pc = w ∧ t.returnAddresses = ws := by
  have hsp : 0 < s.sp.val := by simp [← s.length_returnAddresses, h]
  rw [State.returnAddresses_of_pos hsp] at h
  obtain ⟨hbelow, htop⟩ := List.append_inj' h rfl
  exact ⟨_, execRet_of_pos hsp, rfl, List.singleton_inj.mp htop, hbelow⟩

/-- Calls that fit on the stack all succeed and leave their return addresses in call order above those that were there. -/
theorem callsFrom_returnAddresses {calls : List (Word × Addr12)} {s : State} (hf : s.fault = none)
    (hroom : s.sp.val + calls.length ≤ 16) :
    ∃ t, callsFrom calls s = some t ∧ t.fault = none ∧
      t.returnAddresses = s.returnAddresses ++ calls.map (fun c => c.1 + 2) := by
  induction calls generalizing s with
  | nil => exact ⟨s, rfl, hf, by simp⟩
  | cons c rest ih =>
    obtain ⟨p, nnn⟩ := c
    rw [List.length_cons] at hroom
    obtain ⟨t, hcall, htf, hret⟩ := exec_call_returnAddresses nnn (s := s.setPc p) (by rw [State.setPc_sp]; omega)
    have htf : t.fault = none := htf.trans hf
    have hsp : t.sp.val = s.sp.val + 1 := by
      rw [← t.length_returnAddresses, hret, List.length_append, State.length_returnAddresses]; rfl
    obtain ⟨u, hcalls, huf, hu⟩ := ih htf (by omega)
    refine ⟨u, ?_, huf, ?_⟩
    · simp [callsFrom, hcall, htf, hcalls]
    · rw [hu, hret, List.append_assoc]
      rfl

/-- As many RETs as there are return addresses go to each in turn, the last one first, and leave the stack empty. -/
theorem returnsFrom_returnAddresses {ws : List Word} {s : State} (hf : s.fault = none) (h : s.returnAddresses = ws.reverse) :
    ∃ u, returnsFrom ws.length s = some (ws, u) ∧ u.returnAddresses = [] := by
  induction ws generalizing s with
  | nil => exact ⟨s, rfl, h⟩
  | cons w rest ih =>
    obtain ⟨t, hret, htf, hpc, ht⟩ := exec_ret_returnAddresses (h.trans List.reverse_cons)
    obtain ⟨u, hrets, hu⟩ := ih (htf.trans hf) ht
    exact ⟨u, by simp [returnsFrom, hret, htf, hf, hrets, hpc], hu⟩

/-- Settles O28: sixteen calls fill the stack in call order, and sixteen returns empty it from the top. -/
theorem sixteenNestedCallsReturnInReverse : Obligations.SixteenNestedCallsReturnInReverse := by
  intro s calls hf hsp hlen
  have hempty : s.returnAddresses = [] := by simp [State.returnAddresses, hsp]
  obtain ⟨t, hcalls, htf, ht⟩ := callsFrom_returnAddresses (calls := calls) hf (by simp [hsp, hlen])
  rw [hempty, List.nil_append] at ht
  have htsp : t.sp.val = 16 := by rw [← t.length_returnAddresses, ht, List.length_map, hlen]
  obtain ⟨u, hrets, hu⟩ := returnsFrom_returnAddresses (ws := (calls.map (fun c => c.1 + 2)).reverse) htf (by simp [ht])
  rw [List.length_reverse, List.length_map, hlen] at hrets
  have husp : u.sp.val = 0 := by rw [← u.length_returnAddresses, hu, List.length_nil]
  exact ⟨t, hcalls, htsp, by rw [← ht, State.returnAddresses_of_full htsp], ⟨u, hrets, Fin.ext husp⟩,
    fun nnn => exec_call_overflows nnn htsp⟩

/-! ### A jump to itself (R125; spec/70_reset_and_hazards.md R295) -/

theorem State.atSelfJump_eq_true {s : State} (h : s.atSelfJump = true) :
    ∃ op, s.fetch = .word op ∧ decode op = .instr (.jp (s.pc.setWidth 12)) ∧ s.pc.toNat ≤ 0xFFF := by
  unfold State.atSelfJump at h
  split at h
  · rename_i op hop
    simp only [Bool.and_eq_true, beq_iff_eq, decide_eq_true_eq] at h
    exact ⟨op, hop, h⟩
  · cases h

theorem zext16_setWidth {w : Word} (h : w.toNat ≤ 0xFFF) : zext16 (w.setWidth 12) = w := by
  apply BitVec.eq_of_toNat_eq
  rw [zext16_toNat, BitVec.toNat_setWidth]
  omega

theorem cycle_of_atSelfJump {s : State} (hf : s.fault = none) (h : s.atSelfJump = true) : cycle s = .next s.closeLoad := by
  obtain ⟨op, hfetch, hop, hpc⟩ := State.atSelfJump_eq_true h
  have hjp : exec (.jp (s.pc.setWidth 12)) s.closeLoad = .next (s.closeLoad.setPc (zext16 (s.pc.setWidth 12))) := rfl
  rw [cycle_of_word hf hfetch, execWord_of_instr hop, hjp, zext16_setWidth hpc]
  rfl

/-- Settles O54: the Cycle closes LOAD, on the host's side, and the jump puts in PC what stood there. -/
theorem selfJumpChangesNothing : Obligations.SelfJumpChangesNothing := fun s hf h =>
  ⟨s.closeLoad, cycle_of_atSelfJump hf h, ⟨rfl, rfl, rfl, rfl, rfl, rfl, rfl, rfl, rfl, rfl, rfl⟩, hf, h⟩

end Sys2Proof.Machine

/-! The ALU family (spec/42_alu.md): the loads, the additions and subtractions, the logic operations and the shifts. -/

namespace Sys2Proof.Machine

/-! ### Writing registers leaves the rest alone -/

theorem UnchangedExcept.refl (ps : List Part) (s : State) : UnchangedExcept ps s s :=
  ⟨rfl, fun p _ => by cases p <;> simp [Part.Same]⟩

theorem UnchangedExcept.setReg {s t : State} (h : UnchangedExcept [.v] s t) (x : Nibble) (b : Byte) :
    UnchangedExcept [.v] s (t.setReg x b) := by
  obtain ⟨hcfg, hsame⟩ := h
  refine ⟨hcfg, fun p hp => ?_⟩
  cases p with
  | v => exact absurd (List.mem_singleton_self _) hp
  | _ => exact hsame _ hp

theorem UnchangedExcept.advance {s t : State} (h : UnchangedExcept [.v] s t) : UnchangedExcept [.v, .pc] s t.advance := by
  obtain ⟨hcfg, hsame⟩ := h
  refine ⟨hcfg, fun p hp => ?_⟩
  obtain ⟨hv, hpc⟩ : p ≠ .v ∧ p ≠ .pc := by simpa using hp
  cases p with
  | pc => exact absurd rfl hpc
  | _ => exact hsame _ (List.mem_singleton.not.mpr hv)

theorem unchangedExcept_setReg (s : State) (x : Nibble) (b : Byte) : UnchangedExcept [.v] s (s.setReg x b) :=
  (UnchangedExcept.refl _ s).setReg x b

theorem unchangedExcept_setRegFlag (s : State) (x : Nibble) (r : Byte) (c : Bool) :
    UnchangedExcept [.v] s (s.setRegFlag x r c) :=
  (unchangedExcept_setReg s x r).setReg vF _

theorem unchangedExcept_setRegLogic (s : State) (x : Nibble) (r : Byte) : UnchangedExcept [.v] s (s.setRegLogic x r) := by
  unfold State.setRegLogic
  split
  · exact (unchangedExcept_setReg s x r).setReg vF 0
  · exact unchangedExcept_setReg s x r

/-! ### What an ALU instruction leaves, by the way it writes its result -/

theorem setReg_advance (s : State) (x : Nibble) (r : Byte) :
    ∃ t, (.next (s.setReg x r).advance : Result) = .next t ∧ t.reg x = r ∧ t.pc = s.pc + 2 ∧ RegsUnchangedExcept [x] s t ∧
      UnchangedExcept [.v, .pc] s t := by
  refine ⟨_, rfl, by simp, rfl, fun k hk => ?_, (unchangedExcept_setReg s x r).advance⟩
  have hkx : k ≠ x := by simpa using hk
  simp [hkx]

/-- The flag is written last, so VF holds it whatever X is (R163). -/
theorem setRegFlag_advance (s : State) (x : Nibble) (r : Byte) (c : Bool) :
    ∃ t, (.next (s.setRegFlag x r c).advance : Result) = .next t ∧ t.reg vF = flagByte c ∧ (x ≠ vF → t.reg x = r) ∧
      t.pc = s.pc + 2 ∧ RegsUnchangedExcept [x, vF] s t ∧ UnchangedExcept [.v, .pc] s t := by
  refine ⟨_, rfl, by simp, fun hx => by simp [hx], rfl, fun k hk => ?_, (unchangedExcept_setRegFlag s x r c).advance⟩
  obtain ⟨hkx, hkF⟩ : k ≠ x ∧ k ≠ vF := by simpa using hk
  simp [hkx, hkF]

/-- With LOGIC_VF_RESET the 0 in VF is written last (R153 to R155). -/
theorem setRegLogic_advance (s : State) (x : Nibble) (r : Byte) :
    ∃ t, (.next (s.setRegLogic x r).advance : Result) = .next t ∧ t.pc = s.pc + 2 ∧ UnchangedExcept [.v, .pc] s t ∧
      (s.cfg.logicVfReset = true → t.reg vF = 0 ∧ (x ≠ vF → t.reg x = r) ∧ RegsUnchangedExcept [x, vF] s t) ∧
      (s.cfg.logicVfReset = false → t.reg x = r ∧ RegsUnchangedExcept [x] s t) := by
  refine ⟨_, rfl, by simp, (unchangedExcept_setRegLogic s x r).advance, fun hreset => ?_, fun hkeep => ?_⟩
  · refine ⟨by simp [State.reg_setRegLogic, hreset], fun hx => by simp [State.reg_setRegLogic, hx], fun k hk => ?_⟩
    obtain ⟨hkx, hkF⟩ : k ≠ x ∧ k ≠ vF := by simpa using hk
    simp [State.reg_setRegLogic, hkx, hkF]
  · refine ⟨by simp [State.reg_setRegLogic, hkeep], fun k hk => ?_⟩
    have hkx : k ≠ x := by simpa using hk
    simp [State.reg_setRegLogic, hkeep, hkx]

/-! ### Loads, immediate addition and logic (R150 to R155) -/

/-- Settles O30: both loads are one register write. -/
theorem loadsWriteOnlyVx : Obligations.LoadsWriteOnlyVx := fun x y kk s =>
  ⟨decode_encode (i := .ldImm x kk) rfl, decode_encode (i := .ldReg x y) rfl,
    setReg_advance s x kk, setReg_advance s x (s.reg y)⟩

/-- Settles O31: the sum is the one register write. -/
theorem addImmediateWritesNoFlag : Obligations.AddImmediateWritesNoFlag := by
  refine fun x kk s => ⟨decode_encode (i := .addImm x kk) rfl, ?_⟩
  obtain ⟨t, hexec, hx, hrest⟩ := setReg_advance s x (sumByte (s.reg x) kk)
  exact ⟨t, hexec, by rw [hx, sumByte_toNat], hrest⟩

/-- Settles O32: the three operations differ in the result alone. -/
theorem logicOperationsResetVF : Obligations.LogicOperationsResetVF := by
  rintro x y s i f sel (⟨rfl, rfl, rfl⟩ | ⟨rfl, rfl, rfl⟩ | ⟨rfl, rfl, rfl⟩)
  · exact ⟨decode_encode (i := .orReg x y) rfl, setRegLogic_advance s x (s.reg x ||| s.reg y)⟩
  · exact ⟨decode_encode (i := .andReg x y) rfl, setRegLogic_advance s x (s.reg x &&& s.reg y)⟩
  · exact ⟨decode_encode (i := .xorReg x y) rfl, setRegLogic_advance s x (s.reg x ^^^ s.reg y)⟩

/-! ### Addition and subtraction (R156, R157, R159) -/

theorem flagByte_decide (p : Prop) [Decidable p] : flagByte (decide p) = if p then 1 else 0 := by simp [flagByte]

/-- Settles O33: the flag is the test of the exact sum. -/
theorem addSetsTheCarry : Obligations.AddSetsTheCarry := by
  refine fun x y s => ⟨decode_encode (i := .addReg x y) rfl, ?_⟩
  obtain ⟨t, hexec, hF, hx, hrest⟩ := setRegFlag_advance s x (sumByte (s.reg x) (s.reg y)) (carryFlag (s.reg x) (s.reg y))
  exact ⟨t, hexec, hF.trans (flagByte_decide _), fun hne => by rw [hx hne, sumByte_toNat], hrest⟩

/-- A difference a - b with its not-borrow flag, whichever operand each of the two is. -/
theorem setRegFlag_difference_advance (s : State) (x : Nibble) (a b : Byte) :
    ∃ t, (.next (s.setRegFlag x (differenceByte a b) (notBorrowFlag a b)).advance : Result) = .next t ∧
      t.reg vF = (if a.toNat ≥ b.toNat then 1 else 0) ∧
      (x ≠ vF → ((t.reg x).toNat : Int) = (a.toNat - b.toNat : Int) % 256) ∧ t.pc = s.pc + 2 ∧
      RegsUnchangedExcept [x, vF] s t ∧ UnchangedExcept [.v, .pc] s t := by
  obtain ⟨t, hexec, hF, hx, hrest⟩ := setRegFlag_advance s x (differenceByte a b) (notBorrowFlag a b)
  exact ⟨t, hexec, hF.trans (flagByte_decide _), fun hne => by rw [hx hne, differenceByte_toInt], hrest⟩

/-- Settles O34: SUBN is SUB with the operands exchanged. -/
theorem subtractionsSetNotBorrow : Obligations.SubtractionsSetNotBorrow := fun x y s =>
  ⟨decode_encode (i := .sub x y) rfl, decode_encode (i := .subn x y) rfl,
    setRegFlag_difference_advance s x (s.reg x) (s.reg y), setRegFlag_difference_advance s x (s.reg y) (s.reg x)⟩

/-! ### Shifts (R158, R160) -/

theorem State.shiftOperand_of_vy {s : State} (h : s.cfg.shiftSource = .vy) (x y : Nibble) : s.shiftOperand x y = s.reg y := by
  simp [State.shiftOperand, h]

theorem State.shiftOperand_of_vx {s : State} (h : s.cfg.shiftSource = .vx) (x y : Nibble) : s.shiftOperand x y = s.reg x := by
  simp [State.shiftOperand, h]

theorem exec_shr (x y : Nibble) (s : State) :
    ∃ t, exec (.shr x y) s = .next t ∧ (t.reg vF).toNat = (s.shiftOperand x y).toNat % 2 ∧
      (x ≠ vF → (t.reg x).toNat = (s.shiftOperand x y).toNat / 2) ∧
      t.pc = s.pc + 2 ∧ RegsUnchangedExcept [x, vF] s t ∧ UnchangedExcept [.v, .pc] s t := by
  obtain ⟨t, hexec, hF, hx, hrest⟩ :=
    setRegFlag_advance s x (shiftRightByte (s.shiftOperand x y)) (shiftRightFlag (s.shiftOperand x y))
  exact ⟨t, hexec, by rw [hF, flagByte_shiftRight_toNat], fun hne => by rw [hx hne, shiftRightByte_toNat], hrest⟩

theorem exec_shl (x y : Nibble) (s : State) :
    ∃ t, exec (.shl x y) s = .next t ∧ (t.reg vF).toNat = (s.shiftOperand x y).toNat / 128 ∧
      (x ≠ vF → (t.reg x).toNat = (s.shiftOperand x y).toNat * 2 % 256) ∧
      t.pc = s.pc + 2 ∧ RegsUnchangedExcept [x, vF] s t ∧ UnchangedExcept [.v, .pc] s t := by
  obtain ⟨t, hexec, hF, hx, hrest⟩ :=
    setRegFlag_advance s x (shiftLeftByte (s.shiftOperand x y)) (shiftLeftFlag (s.shiftOperand x y))
  exact ⟨t, hexec, by rw [hF, flagByte_shiftLeft_toNat], fun hne => by rw [hx hne, shiftLeftByte_toNat], hrest⟩

/-- Settles O35: src is the model's shift operand under either source. -/
theorem shiftsMoveOneBit : Obligations.ShiftsMoveOneBit := by
  intro x y s src hsource
  obtain rfl : s.shiftOperand x y = src := by
    obtain ⟨hvy, rfl⟩ | ⟨hvx, rfl⟩ := hsource
    · exact State.shiftOperand_of_vy hvy x y
    · exact State.shiftOperand_of_vx hvx x y
  exact ⟨decode_encode (i := .shr x y) rfl, decode_encode (i := .shl x y) rfl, exec_shr x y s, exec_shl x y s⟩

end Sys2Proof.Machine

/-! The index and memory-transfer family (spec/43_index_memory.md): the instructions that set I, and the transfers to and from memory. -/

namespace Sys2Proof.Machine

/-! ### What a sequence of writes leaves unchanged -/

theorem Part.Same.trans {p : Part} {s t u : State} (h : p.Same s t) (h' : p.Same t u) : p.Same s u := by
  cases p with
  | mem => exact fun a => (h' a).trans (h a)
  | v => exact fun k => (h' k).trans (h k)
  | _ => exact Eq.trans h' h

theorem UnchangedExcept.trans {ps qs : List Part} {s t u : State} (h : UnchangedExcept ps s t) (h' : UnchangedExcept qs t u) :
    UnchangedExcept (ps ++ qs) s u := by
  obtain ⟨hcfg, hsame⟩ := h
  obtain ⟨hcfg', hsame'⟩ := h'
  refine ⟨hcfg'.trans hcfg, fun p hp => ?_⟩
  obtain ⟨hps, hqs⟩ : p ∉ ps ∧ p ∉ qs := by simpa using hp
  exact (hsame p hps).trans (hsame' p hqs)

theorem unchangedExcept_advance (s : State) : UnchangedExcept [.pc] s s.advance := unchangedExcept_setPc s _

theorem unchangedExcept_setI (s : State) (w : Word) : UnchangedExcept [.i] s (s.setI w) := by
  refine ⟨rfl, fun p hp => ?_⟩
  cases p with
  | i => exact absurd (List.mem_singleton_self _) hp
  | _ => simp [Part.Same]

theorem unchangedExcept_setRegs (s : State) (v : Vector Byte 16) : UnchangedExcept [.v] s (s.setRegs v) := by
  refine ⟨rfl, fun p hp => ?_⟩
  cases p with
  | v => exact absurd (List.mem_singleton_self _) hp
  | _ => simp [Part.Same]

theorem unchangedExcept_writeBytes (s : State) (base : Nat) (bs : List Byte) :
    UnchangedExcept [.mem] s (s.writeBytes base bs) := by
  refine ⟨s.writeBytes_cfg base bs, fun p hp => ?_⟩
  cases p with
  | mem => exact absurd (List.mem_singleton_self _) hp
  | _ => simp [Part.Same]

/-! ### The instructions that set I alone (R181 to R183) -/

theorem setI_advance (s : State) {w : Word} {n : Nat} (hw : w.toNat = n) :
    ∃ t, (.next (s.setI w).advance : Result) = .next t ∧ t.i.toNat = n ∧ t.pc = s.pc + 2 ∧ UnchangedExcept [.i, .pc] s t :=
  ⟨_, rfl, hw, rfl, (unchangedExcept_setI s w).trans (unchangedExcept_advance _)⟩

/-- Settles O37: both instructions are one write of I. -/
theorem indexIsSetAndAdded : Obligations.IndexIsSetAndAdded := fun nnn x s =>
  ⟨decode_encode (i := .ldI nnn) rfl, decode_encode (i := .addI x) rfl,
    setI_advance s (zext16_toNat nnn), setI_advance s (s.indexPlus_toNat _)⟩

/-- Settles O38: the digit of the glyph is the low nibble of VX. -/
theorem fontAddressUsesTheLowNibble : Obligations.FontAddressUsesTheLowNibble := fun x s =>
  ⟨decode_encode (i := .ldF x) rfl, setI_advance s (by rw [glyphAddress_toNat, lowNibble_toNat])⟩

/-! ### The checks of a transfer over the n + 1 addresses from base to base + n (R180) -/

section
variable {i : Instr} {w : Bool} {base n : Nat} {s body : State}

theorem guarded_of_inRange (hle : base + n ≤ 0xFFF) (hp : w = true → s.cfg.protectLowMemory = true → 0x200 ≤ base) :
    guarded i w base (n + 1) s body = .next body :=
  guarded_of_none (firstFailure_eq_none.mpr fun _ _ =>
    check_eq_none.mpr ⟨by omega, fun hw hprot => Nat.le_add_right_of_le (hp hw hprot)⟩)

theorem guarded_raises_outOfRange (hlt : 0xFFF < base + n)
    (hp : w = true → s.cfg.protectLowMemory = true → 0x200 ≤ base) :
    Raises (guarded i w base (n + 1) s body) s .addressOutOfRange (some (encode i)) (some (max base 0x1000)) :=
  raises_of_eq (guarded_of_some (firstFailure_outOfRange n.succ_pos (by omega) hp))

theorem guarded_raises_protected (hp : s.cfg.protectLowMemory = true) (hlt : base < 0x200) :
    Raises (guarded i true base (n + 1) s body) s .protectedWrite (some (encode i)) (some base) :=
  raises_of_eq (guarded_of_some (firstFailure_protected n.succ_pos hp hlt))

end

/-! ### Stores (R184, R185) -/

theorem bytesUnchangedOutside_writeBytes (s : State) (base : Nat) (bs : List Byte) :
    BytesUnchangedOutside base bs.length s (s.writeBytes base bs) := fun _ => s.readByte_writeBytes_outside

theorem State.readByte_writeBytes_bcdDigits (s : State) (base : Nat) (b : Byte) {j : Nat} (hj : j < 3) :
    ((s.writeBytes base (bcdDigits b)).readByte (base + j)).toNat = [b.toNat / 100, b.toNat / 10 % 10, b.toNat % 10][j] := by
  rw [s.readByte_writeBytes_inside hj]
  exact (List.getElem_map BitVec.toNat).symm.trans (List.getElem_of_eq (bcdDigits_toNat b) (by simpa using hj))

/-- Settles O39, by whether the three addresses pass their checks. -/
theorem decimalDigitsAreStored : Obligations.DecimalDigitsAreStored := by
  refine fun x s => ⟨decode_encode (i := .ldB x) rfl, fun hle hp => ?_, guarded_raises_protected, fun hlt => ?_⟩
  · have hdigit {j : Nat} := s.readByte_writeBytes_bcdDigits s.i.toNat (s.reg x) (j := j)
    exact ⟨_, guarded_of_inRange hle fun _ => hp, by simp, hdigit (j := 0) (by decide), hdigit (j := 1) (by decide),
      hdigit (j := 2) (by decide), bytesUnchangedOutside_writeBytes s _ (bcdDigits (s.reg x)),
      (unchangedExcept_writeBytes s _ _).trans (unchangedExcept_advance _)⟩
  · exact guarded_raises_outOfRange hlt fun _ _ => show 0x200 ≤ s.i.toNat by omega

/-- Settles O40, by whether the X + 1 addresses pass their checks. -/
theorem blockStoreWritesV0ToVx : Obligations.BlockStoreWritesV0ToVx := by
  refine fun x s => ⟨decode_encode (i := .ldMemVx x) rfl, fun hle hp => ?_, guarded_raises_protected, fun hlt => ?_⟩
  · have hread (k : Nibble) (hk : k.toNat ≤ x.toNat) :
        (s.writeBytes s.i.toNat (s.blockRegs x)).readByte (s.i.toNat + k.toNat) = s.reg k := by
      rw [State.readByte_writeBytes_eq_byteUnder, s.byteUnder_blockRegs hk]
    exact ⟨_, guarded_of_inRange hle fun _ => hp, by simp, s.indexPlus_toNat (x.toNat + 1), hread,
      s.length_blockRegs x ▸ bytesUnchangedOutside_writeBytes s s.i.toNat (s.blockRegs x),
      ((unchangedExcept_writeBytes s _ _).trans (unchangedExcept_setI _ _)).trans (unchangedExcept_advance _)⟩
  · exact guarded_raises_outOfRange hlt fun _ _ => show 0x200 ≤ s.i.toNat by omega

/-! ### The block load (R186) -/

/-- Settles O41, by whether the X + 1 addresses are in range; a read is not checked for protection. -/
theorem blockLoadReadsV0ToVx : Obligations.BlockLoadReadsV0ToVx := by
  refine fun x s => ⟨decode_encode (i := .ldVxMem x) rfl, fun hle => ?_, fun hlt => ?_⟩
  · exact ⟨_, guarded_of_inRange hle nofun, rfl, s.indexPlus_toNat (x.toNat + 1), s.getElem_loadedRegs x,
      ((unchangedExcept_setRegs s _).trans (unchangedExcept_setI _ _)).trans (unchangedExcept_advance _)⟩
  · exact guarded_raises_outOfRange hlt nofun

end Sys2Proof.Machine

/-! The display family (spec/44_display.md): CLS, one draw, the same draw twice, and the instructions that turn a cell on or off. -/

namespace Sys2Proof.Machine

/-! ### CLS (R200) -/

theorem unchangedExcept_setDisp (s : State) (d : Display) : UnchangedExcept [.disp] s (s.setDisp d) := by
  refine ⟨rfl, fun p hp => ?_⟩
  cases p with
  | disp => exact absurd (List.mem_singleton_self _) hp
  | _ => simp [Part.Same]

/-- Settles O44: CLS is one write of the cleared display. -/
theorem clearTurnsEveryCellOff : Obligations.ClearTurnsEveryCellOff := fun s =>
  ⟨decode_encode (i := .cls) rfl, _, rfl, Display.cell_clear, rfl,
    (unchangedExcept_setDisp s _).trans (unchangedExcept_advance _)⟩

/-! ### What a draw that completes leaves (R202) -/

/-- The machine after a draw whose sprite bytes are in range. -/
def State.afterDraw (s : State) (x y n : Nibble) : State :=
  ((s.setDisp (s.drawn x y n).1).setReg vF (flagByte (s.drawn x y n).2)).advance

section
variable {s t : State} {x y n : Nibble} {px : Fin 64} {py : Fin 32}

theorem exec_drw_of_none (h : firstFailure s.cfg false s.base n.toNat = none) :
    exec (.drw x y n) s = .next (s.afterDraw x y n) := guarded_of_none h

theorem exec_drw_completed (h : exec (.drw x y n) s = .next t) (hf : t.fault = none) :
    firstFailure s.cfg false s.base n.toNat = none ∧ t = s.afterDraw x y n := guarded_completed h hf

@[simp] theorem State.afterDraw_pc : (s.afterDraw x y n).pc = s.pc + 2 := rfl
@[simp] theorem State.afterDraw_reg (k : Nibble) :
    (s.afterDraw x y n).reg k = if k = vF then flagByte (s.drawn x y n).2 else s.reg k := by
  simp [State.afterDraw]

theorem unchangedExcept_afterDraw : UnchangedExcept [.disp, .v, .pc] s (s.afterDraw x y n) :=
  ((unchangedExcept_setDisp s _).trans (unchangedExcept_setReg _ vF _)).trans (unchangedExcept_advance _)

theorem flagByte_eq_zero {c : Bool} : flagByte c = 0 ↔ c = false := by cases c <;> decide

theorem State.drawn_cell_of_covered (h : SpriteCovers s x y n px py) :
    Display.cell (s.drawn x y n).1 px py = !Display.cell s.disp px py := by
  rw [State.drawn_cell, if_pos h]

theorem State.drawn_cell_of_not_covered (h : ¬SpriteCovers s x y n px py) :
    Display.cell (s.drawn x y n).1 px py = Display.cell s.disp px py := by
  rw [State.drawn_cell, if_neg h]

/-- A cell goes off where the sprite covers a cell that was on. -/
theorem State.drawn_turnsOff_iff :
    (Display.cell s.disp px py = true ∧ Display.cell (s.drawn x y n).1 px py = false) ↔
      SpriteCovers s x y n px py ∧ Display.cell s.disp px py = true := by
  by_cases h : SpriteCovers s x y n px py
  · simp [State.drawn_cell_of_covered h, h]
  · simp [State.drawn_cell_of_not_covered h, h]

/-- The collision flag in R202's words: some cell went from on to off. -/
theorem State.drawn_hit_iff_turnsOff :
    (s.drawn x y n).2 = true ↔
      ∃ px py, Display.cell s.disp px py = true ∧ Display.cell (s.drawn x y n).1 px py = false := by
  simp only [State.drawn_hit, State.drawn_turnsOff_iff]

theorem State.afterDraw_reg_vF_eq_one : (s.afterDraw x y n).reg vF = 1 ↔ (s.drawn x y n).2 = true := by
  rw [State.afterDraw_reg, if_pos rfl, flagByte_eq_one]

theorem State.afterDraw_reg_vF_eq_zero : (s.afterDraw x y n).reg vF = 0 ↔ (s.drawn x y n).2 = false := by
  rw [State.afterDraw_reg, if_pos rfl, flagByte_eq_zero]

theorem exec_drw_of_inRange (h : ∀ r, r < n.toNat → s.i.toNat + r ≤ 0xFFF) :
    exec (.drw x y n) s = .next (s.afterDraw x y n) :=
  exec_drw_of_none (firstFailure_eq_none.mpr fun r hr => check_eq_none.mpr ⟨h r hr, nofun⟩)

theorem exec_drw_raises_outOfRange {r : Nat} (hr : r < n.toNat) (h : 0xFFF < s.i.toNat + r) :
    Raises (exec (.drw x y n) s) s .addressOutOfRange (some (packXYN 0xD x y n)) (some (max s.i.toNat 0x1000)) :=
  raises_of_eq (guarded_of_some (firstFailure_outOfRange (by omega) (show 0x1000 < s.i.toNat + n.toNat by omega) nofun))

end

/-- Settles O45, by whether the sprite's bytes are in range. -/
theorem drawTogglesTheCoveredCells : Obligations.DrawTogglesTheCoveredCells := by
  refine fun x y n s => ⟨decode_encode (i := .drw x y n) rfl, fun hin => ?_, fun ⟨r, hr, hout⟩ => ?_⟩
  · refine ⟨_, exec_drw_of_inRange hin, State.afterDraw_pc,
      fun px py => ⟨State.drawn_cell_of_covered, State.drawn_cell_of_not_covered⟩, fun hoff => ?_, fun hon => ?_,
      fun k hk => ?_, unchangedExcept_afterDraw⟩
    · exact State.afterDraw_reg_vF_eq_one.mpr (State.drawn_hit_iff_turnsOff.mpr hoff)
    · refine State.afterDraw_reg_vF_eq_zero.mpr (Bool.eq_false_iff.mpr fun hhit => ?_)
      obtain ⟨px, py, hwas, hoff⟩ := State.drawn_hit_iff_turnsOff.mp hhit
      exact Bool.eq_false_iff.mp hoff (hon px py hwas)
    · rw [State.afterDraw_reg, if_neg (List.mem_singleton.not.mp hk)]
  · exact exec_drw_raises_outOfRange hr hout

/-! ### The composition laws (R204) -/

section
variable {s : State} {x y n : Nibble}

/-- What a sprite covers does not depend on the display. -/
theorem spriteCovers_setDisp {d : Display} {px : Fin 64} {py : Fin 32} :
    SpriteCovers (s.setDisp d) x y n px py ↔ SpriteCovers s x y n px py := Iff.rfl

/-- Each covered cell is toggled twice and every other never. -/
theorem State.drawn_twice_disp : ((s.setDisp (s.drawn x y n).1).drawn x y n).1 = s.disp := by
  refine Display.ext_cells fun px py => ?_
  by_cases h : SpriteCovers s x y n px py
  · rw [State.drawn_cell_of_covered (spriteCovers_setDisp.mpr h), State.setDisp_disp, State.drawn_cell_of_covered h,
      Bool.not_not]
  · rw [State.drawn_cell_of_not_covered (spriteCovers_setDisp.not.mpr h), State.setDisp_disp,
      State.drawn_cell_of_not_covered h]

/-- The second draw meets a cell that is on where the first one turned it on. -/
theorem State.drawn_twice_hit :
    ((s.setDisp (s.drawn x y n).1).drawn x y n).2 = true ↔
      ∃ px py, SpriteCovers s x y n px py ∧ Display.cell s.disp px py = false := by
  simp only [State.drawn_hit, spriteCovers_setDisp, State.setDisp_disp]
  refine exists_congr fun px => exists_congr fun py => and_congr_right fun h => ?_
  rw [State.drawn_cell_of_covered h, Bool.not_eq_true']

/-- With its registers put back, the machine draws where it drew before, on the display the first draw left. -/
theorem State.drawn_afterDraw_setRegs :
    ((s.afterDraw x y n).setRegs s.v).drawn x y n = (s.setDisp (s.drawn x y n).1).drawn x y n := rfl

theorem State.drawn_hit_of_clear (h : ∀ px py, Display.cell s.disp px py = false) : (s.drawn x y n).2 = false :=
  Bool.eq_false_iff.mpr fun hhit => by
    obtain ⟨px, py, -, hon⟩ := (s.drawn_hit x y n).mp hhit
    exact Bool.eq_false_iff.mp (h px py) hon

theorem State.drawn_cell_of_clear (h : ∀ px py, Display.cell s.disp px py = false) (px : Fin 64) (py : Fin 32) :
    Display.cell (s.drawn x y n).1 px py = true ↔ SpriteCovers s x y n px py := by
  by_cases hcov : SpriteCovers s x y n px py
  · simp [State.drawn_cell_of_covered hcov, h, hcov]
  · simp [State.drawn_cell_of_not_covered hcov, h, hcov]

/-- A sprite covers some cell when it has a 1 bit, wrapping included. -/
theorem exists_spriteCovers_iff :
    (∃ px py, SpriteCovers s x y n px py) ↔
      ∃ r c : Nat, r < n.toNat ∧ c < 8 ∧ (s.readByte (s.i.toNat + r)).getLsbD (7 - c) = true := by
  constructor
  · rintro ⟨px, py, r, c, hr, hc, hbit, -, -⟩
    exact ⟨r, c, hr, hc, hbit⟩
  · rintro ⟨r, c, hr, hc, hbit⟩
    exact ⟨Fin.ofNat 64 ((s.reg x).toNat % 64 + c), Fin.ofNat 32 ((s.reg y).toNat % 32 + r), r, c, hr, hc, hbit, rfl, rfl⟩

end

/-- The display changes by CLS and DRW alone, and CLS turns no cell on. -/
theorem exec_turnsOn {i : Instr} {s t : State} {px : Fin 64} {py : Fin 32} (h : exec i s = .next t)
    (hs : Display.cell s.disp px py = false) (ht : Display.cell t.disp px py = true) : ∃ x y n, i = .drw x y n := by
  obtain ⟨-, -, hsame | rfl | hdrw, -⟩ := eachComponentHasItsWriters i s t h
  · simp [hsame, hs] at ht
  · cases h
    simp at ht
  · exact hdrw

theorem exec_turnsOff {i : Instr} {s t : State} {px : Fin 64} {py : Fin 32} (h : exec i s = .next t)
    (hs : Display.cell s.disp px py = true) (ht : Display.cell t.disp px py = false) :
    i = .cls ∨ ∃ x y n, i = .drw x y n := by
  obtain ⟨-, -, hdisp, -⟩ := eachComponentHasItsWriters i s t h
  exact hdisp.resolve_left fun hsame => by simp [hsame, hs] at ht

/-- Settles O46: the second draw toggles the same cells, and its flag is read off the display the first one left. -/
theorem drawingTwiceRestoresTheDisplay : Obligations.DrawingTwiceRestoresTheDisplay := by
  refine ⟨fun x y n s t hsf h htf => ?_, fun i s t px py h => ⟨exec_turnsOn h, exec_turnsOff h⟩⟩
  obtain ⟨hff, rfl⟩ := exec_drw_completed h htf
  have hVF : (((s.afterDraw x y n).setRegs s.v).afterDraw x y n).reg vF = 1 ↔
      ∃ px py, SpriteCovers s x y n px py ∧ Display.cell s.disp px py = false := by
    rw [State.afterDraw_reg_vF_eq_one, State.drawn_afterDraw_setRegs, State.drawn_twice_hit]
  refine ⟨_, exec_drw_of_none (s := (s.afterDraw x y n).setRegs s.v) hff, hsf, State.drawn_twice_disp, hVF, fun hclear => ?_⟩
  refine ⟨State.afterDraw_reg_vF_eq_zero.mpr (State.drawn_hit_of_clear hclear), State.drawn_cell_of_clear hclear, ?_⟩
  simpa only [hclear, and_true, exists_spriteCovers_iff] using hVF

end Sys2Proof.Machine

/-! The keypad and timer family (spec/45_keypad_timers.md): the key skips, the wait for a key, and the timer instructions. -/

namespace Sys2Proof.Machine

/-! ### The key skips (R220, R221) -/

theorem lowNibble_eq {b : Byte} {k : Nibble} (h : k.toNat = b.toNat % 16) : lowNibble b = k :=
  BitVec.eq_of_toNat_eq ((lowNibble_toNat b).trans h.symm)

theorem exec_skp (x : Nibble) (s : State) : exec (.skp x) s = .next (s.skipIf (s.keyHeld (lowNibble (s.reg x)))) := rfl

theorem exec_sknp (x : Nibble) (s : State) : exec (.sknp x) s = .next (s.skipIf (!s.keyHeld (lowNibble (s.reg x)))) := rfl

/-- Settles O47: each skip is `skipIf` of the key of the low nibble, SKNP with the test negated. -/
theorem keySkipsTestTheLowNibble : Obligations.KeySkipsTestTheLowNibble := by
  refine fun x k s hk => ⟨decode_encode (i := .skp x) rfl, decode_encode (i := .sknp x) rfl, ?_, ?_⟩
  · rw [exec_skp, lowNibble_eq hk]
    exact skipIf_of_iff s Iff.rfl
  · rw [exec_sknp, lowNibble_eq hk, ← ite_not]
    exact skipIf_of_iff s (by rw [Bool.not_eq_true', Bool.not_eq_true])

/-! ### The wait for a key (R222) -/

theorem State.leastHeldKey_of_least {s : State} {k : Nibble} (hk : s.keyHeld k = true)
    (hleast : ∀ j : Nibble, j.toNat < k.toNat → s.keyHeld j = false) : s.leastHeldKey = some k.toNat :=
  State.leastHeldKey_eq_some.mpr ⟨k.isLt, hk, hleast⟩

theorem exec_ldVxK_of_some {x : Nibble} {s : State} {k : Nat} (h : s.leastHeldKey = some k) :
    exec (.ldVxK x) s = .next (s.setReg x (BitVec.ofNat 8 k)).advance := by
  simp only [exec, execLdVxK, h]

theorem exec_ldVxK_of_none {x : Nibble} {s : State} (h : s.leastHeldKey = none) : exec (.ldVxK x) s = .next s := by
  simp only [exec, execLdVxK, h]

/-- A key's index fits the byte VX takes. -/
theorem key_toByte_toNat (k : Nibble) : (BitVec.ofNat 8 k.toNat).toNat = k.toNat :=
  Nat.mod_eq_of_lt (k.isLt.trans (by decide))

/-- Settles O48, by whether a key is held. -/
theorem keyWaitTakesTheLeastHeldKey : Obligations.KeyWaitTakesTheLeastHeldKey := by
  refine fun x s => ⟨decode_encode (i := .ldVxK x) rfl, fun k hk hleast => ?_, fun hnone => ?_⟩
  · rw [exec_ldVxK_of_some (State.leastHeldKey_of_least hk hleast)]
    obtain ⟨t, hexec, hx, hrest⟩ := setReg_advance s x (BitVec.ofNat 8 k.toNat)
    exact ⟨t, hexec, by rw [hx, key_toByte_toNat], hrest⟩
  · exact exec_ldVxK_of_none (State.leastHeldKey_eq_none.mpr hnone)

/-! ### The timers (R223 to R225; spec/10_state.md R35) -/

theorem unchangedExcept_setDt (s : State) (b : Byte) : UnchangedExcept [.dt] s (s.setDt b) := by
  refine ⟨rfl, fun p hp => ?_⟩
  cases p with
  | dt => exact absurd (List.mem_singleton_self _) hp
  | _ => simp [Part.Same]

theorem unchangedExcept_setSt (s : State) (b : Byte) : UnchangedExcept [.st] s (s.setSt b) := by
  refine ⟨rfl, fun p hp => ?_⟩
  cases p with
  | st => exact absurd (List.mem_singleton_self _) hp
  | _ => simp [Part.Same]

theorem State.soundOut_eq_true {s : State} : s.soundOut = true ↔ 0 < s.st.toNat := decide_eq_true_iff

/-- Settles O49: each instruction is one write, of VX, DT or ST. -/
theorem timersAreReadAndSet : Obligations.TimersAreReadAndSet := fun x s =>
  ⟨decode_encode (i := .ldVxDt x) rfl, decode_encode (i := .ldDtVx x) rfl, decode_encode (i := .ldStVx x) rfl,
    setReg_advance s x s.dt,
    ⟨_, rfl, rfl, rfl, (unchangedExcept_setDt s _).trans (unchangedExcept_advance _)⟩,
    ⟨_, rfl, rfl, rfl, (unchangedExcept_setSt s _).trans (unchangedExcept_advance _), State.soundOut_eq_true⟩⟩

end Sys2Proof.Machine

/-! The exceptions family (spec/60_exceptions.md): what a Cycle and a host operation can do to FAULT, the faults each instruction can
raise, `Unknown` words under both policies, and TICK. -/

namespace Sys2Proof.Machine

/-! ### TICK (R260, R261, R263) -/

theorem unchangedExcept_tick (s : State) : UnchangedExcept [.dt, .st] s s.tick :=
  (unchangedExcept_setDt s _).trans (unchangedExcept_setSt _ _)

theorem tick_dt_toNat (s : State) : s.tick.dt.toNat = s.dt.toNat - 1 := countDown_toNat s.dt

theorem tick_st_toNat (s : State) : s.tick.st.toNat = s.st.toNat - 1 := countDown_toNat s.st

theorem UnchangedExcept.trans_same {ps : List Part} {s t u : State} (h : UnchangedExcept ps s t)
    (h' : UnchangedExcept ps t u) : UnchangedExcept ps s u := by
  obtain ⟨hcfg, hsame⟩ := h.trans h'
  exact ⟨hcfg, fun p hp => hsame p (by simpa using hp)⟩

theorem ticks_countDown (k : Nat) (s : State) : ∃ t, ticks k s = .next t ∧ t.dt.toNat = s.dt.toNat - k ∧
    t.st.toNat = s.st.toNat - k ∧ UnchangedExcept [.dt, .st] s t := by
  induction k generalizing s with
  | zero => exact ⟨s, rfl, rfl, rfl, UnchangedExcept.refl _ s⟩
  | succ k ih =>
    obtain ⟨t, ht, hdt, hst, hsame⟩ := ih s.tick
    rw [tick_dt_toNat] at hdt
    rw [tick_st_toNat] at hst
    exact ⟨t, ht, by omega, by omega, (unchangedExcept_tick s).trans_same hsame⟩

/-- Settles O50: one Tick counts each timer down by one, and k Ticks follow by induction on k. -/
theorem ticksCountDownToZero : Obligations.TicksCountDownToZero :=
  ⟨fun s => ⟨s.tick, rfl, tick_dt_toNat s, tick_st_toNat s, unchangedExcept_tick s⟩, ticks_countDown⟩

/-! ### `Unknown` words (R246) -/

theorem execWord_of_unknown {op w : Word} (h : decode op = .unknown w) (s : State) : execWord op s = execUnknown w s := by
  simp [execWord, h]

theorem cycle_of_unknownBytes {s : State} {op : Word} (hf : s.fault = none) (hpc : s.pc.toNat ≤ 0xFFE)
    (hop : decodeBytes (s.readByte s.pc.toNat) (s.readByte (s.pc.toNat + 1)) = .unknown op) :
    cycle s = execUnknown op s.closeLoad := by
  rw [cycle_of_word hf (State.fetch_of_le hpc), execWord_of_unknown hop]

theorem execUnknown_of_halt {s : State} (op : Word) (h : s.cfg.unknownPolicy = some .halt) :
    execUnknown op s = raise .unknownOpcode (some op) none s := by
  simp [execUnknown, Config.unknownWordPolicy, h]

theorem execUnknown_of_skip {s : State} (op : Word) (h : s.cfg.unknownPolicy = some .skip) :
    execUnknown op s = .next s.advance := by
  simp [execUnknown, Config.unknownWordPolicy, h]

/-- Settles O10, by the policy; where none is given the free value is one of the two. -/
theorem unknownWordFollowsThePolicy : Obligations.UnknownWordFollowsThePolicy := by
  intro s op hf hpc hop
  rw [cycle_of_unknownBytes hf hpc hop]
  refine ⟨fun hhalt => ?_, fun hskip => ?_, fun _ => ?_⟩
  · exact raises_of_eq (execUnknown_of_halt op hhalt)
  · exact ⟨_, execUnknown_of_skip op hskip, rfl, unchangedExcept_advance s.closeLoad⟩
  · obtain hadvance | hraise := execUnknown_cases op s.closeLoad
    · exact .inr ⟨_, hadvance, rfl, unchangedExcept_advance s.closeLoad⟩
    · exact .inl (raises_of_eq hraise)

/-! ### What a Cycle can do: complete, or raise a fault for the word it fetched (R240, R241, R244) -/

/-- The word a fault record of the next Cycle names: the two bytes at P, none where the fetch itself faults (R241). -/
def State.fetchedWord (s : State) : Option Word :=
  if s.pc.toNat ≤ 0xFFE then some (s.readByte s.pc.toNat ++ s.readByte (s.pc.toNat + 1)) else none

theorem State.fetchedWord_of_word {s : State} {op : Word} (h : s.fetch = .word op) : s.fetchedWord = some op := by
  obtain ⟨hpc, rfl⟩ := State.fetch_eq_word h
  exact if_pos hpc

theorem State.fetchedWord_of_outOfRange {s : State} {a : Nat} (h : s.fetch = .outOfRange a) : s.fetchedWord = none :=
  if_neg (Nat.not_le.mpr (State.fetch_eq_outOfRange h))

theorem execWord_completesOrRaises (op : Word) (s : State) :
    (∃ t, execWord op s = .next t ∧ t.fault = s.fault) ∨ ∃ code addr, execWord op s = raise code (some op) addr s := by
  cases hd : decode op with
  | instr i =>
    rw [execWord_of_instr hd, ← (decode_instr hd).1]
    exact exec_completesOrRaises i s
  | unknown w =>
    obtain ⟨rfl, -⟩ := decode_unknown hd
    rw [execWord_of_unknown hd]
    obtain hadvance | hraise := execUnknown_cases w s
    · exact .inl ⟨_, hadvance, rfl⟩
    · exact .inr ⟨_, _, hraise⟩

theorem cycle_completesOrRaises (s : State) :
    (∃ t, cycle s = .next t ∧ t.fault = s.fault) ∨ ∃ code addr, cycle s = raise code s.fetchedWord addr s.closeLoad := by
  obtain ⟨-, h⟩ | ⟨-, a, hfetch, h⟩ | ⟨-, op, hfetch, h⟩ := cycle_cases (s := s) rfl
  · exact .inl ⟨s, h, rfl⟩
  · rw [State.fetchedWord_of_outOfRange hfetch]
    exact .inr ⟨_, _, h⟩
  · rw [State.fetchedWord_of_word hfetch, h]
    exact execWord_completesOrRaises op s.closeLoad

theorem cycle_answers (s : State) : ∃ t, cycle s = .next t := by
  obtain ⟨t, h, -⟩ | ⟨_, _, h⟩ := cycle_completesOrRaises s
  · exact ⟨t, h⟩
  · exact ⟨_, h⟩

/-- A Cycle that leaves a fault it did not find raised it. -/
theorem cycle_raised {s t : State} {r : FaultRecord} (hs : s.fault = none) (h : cycle s = .next t) (hr : t.fault = some r) :
    t = { s.closeLoad with fault := some r } ∧ r.p = s.pc ∧ r.op = s.fetchedWord := by
  obtain ⟨u, hu, hfault⟩ | ⟨code, addr, hraise⟩ := cycle_completesOrRaises s
  · cases h.symm.trans hu
    simp [hfault, hs] at hr
  · cases h.symm.trans hraise
    cases hr
    exact ⟨rfl, rfl, rfl⟩

/-! ### What a host operation does to FAULT (R244, R245, R263) -/

theorem State.load_fault (s : State) (image : List Byte) : (s.load image).fault = s.fault := by
  unfold State.load
  split <;> simp [State.loadImage]

/-- CYCLE and construction alone can write FAULT. -/
theorem hostOp_fault {op : HostOp} {s t : State} (h : hostOp op s = .next t) :
    op = .cycle ∨ op = .construct ∨ t.fault = s.fault := by
  cases op with
  | cycle => exact .inl rfl
  | construct => exact .inr (.inl rfl)
  | load image => rw [hostOp_load_next h, State.load_fault]; exact .inr (.inr rfl)
  | tick => cases h; exact .inr (.inr rfl)
  | setKey k b => cases h; exact .inr (.inr rfl)

theorem hostOp_keeps_fault {op : HostOp} {s t : State} {r : FaultRecord} (hs : s.fault = some r)
    (h : hostOp op s = .next t) (hop : op ≠ .construct) : t.fault = some r := by
  obtain rfl | rfl | hsame := hostOp_fault h
  · cases (cycle_of_fault hs).symm.trans h
    exact hs
  · exact absurd rfl hop
  · exact hsame.trans hs

theorem State.dispOut_eq_one {s : State} {x : Fin 64} {y : Fin 32} :
    s.dispOut x y = 1 ↔ Display.cell s.disp x y = true := Bool.toNat_eq_one

/-- Settles O12: a Cycle answers the state it found, TICK and SETKEY do not write FAULT, and construction alone clears it. -/
theorem latchedFaultIsSticky : Obligations.LatchedFaultIsSticky := fun s _ hs =>
  ⟨cycle_of_fault hs, ⟨rfl, tick_dt_toNat s, tick_st_toNat s, hs⟩, fun _ _ => ⟨rfl, by simp, hs⟩,
    ⟨hs, rfl, State.soundOut_eq_true, fun _ _ => State.dispOut_eq_one⟩,
    fun _ _ h hgone => by_contra fun hop => hgone (hostOp_keeps_fault hs h hop)⟩

theorem hostOp_raised {op : HostOp} {s t : State} {r : FaultRecord} (hs : s.fault = none) (h : hostOp op s = .next t)
    (hr : t.fault = some r) : cycle s = .next t := by
  obtain rfl | rfl | hsame := hostOp_fault h
  · exact h
  · cases h
    cases hr
  · simp [hsame, hs] at hr

/-- Settles O13: the step is a Cycle, which raised the fault beside the machine with LOAD closed. -/
theorem raisedFaultIsPrecise : Obligations.RaisedFaultIsPrecise := by
  intro s t r hs h hr
  obtain ⟨op, e, he⟩ := step_eq_hostOp s
  have hcycle : cycle (s.setEnv e) = .next t := hostOp_raised hs (he.symm.trans h) hr
  obtain ⟨rfl, hp, hop⟩ := cycle_raised (s := s.setEnv e) hs hcycle hr
  exact ⟨⟨rfl, rfl, rfl, rfl, rfl, rfl, rfl, rfl, rfl, rfl, rfl⟩, hp, hop⟩

/-! ### A step always answers, but for a late LOAD (R290) -/

theorem hostOp_load_of_open {s : State} (image : List Byte) (h : s.env.loadOpen = true) :
    hostOp (.load image) s = .next (s.load image) := by
  simp [hostOp, h]

theorem hostOp_load_of_closed {s : State} (image : List Byte) (h : s.env.loadOpen = false) :
    hostOp (.load image) s = .refused .loadOutsideBoot := by
  simp [hostOp, h]

theorem hostOp_answers_or_lateLoad (op : HostOp) (s : State) :
    (∃ t, hostOp op s = .next t) ∨ s.env.loadOpen = false ∧ ∃ image, op = .load image := by
  cases op with
  | cycle => exact .inl (cycle_answers s)
  | tick => exact .inl ⟨_, rfl⟩
  | setKey k b => exact .inl ⟨_, rfl⟩
  | construct => exact .inl ⟨_, rfl⟩
  | load image =>
    cases hopen : s.env.loadOpen with
    | true => exact .inl ⟨_, hostOp_load_of_open image hopen⟩
    | false => exact .inr ⟨rfl, image, rfl⟩

theorem step_of_lateLoad {s : State} {image : List Byte} {rest : List HostOp} (hopen : s.env.loadOpen = false)
    (hops : s.env.ops = .load image :: rest) : step s = .refused .loadOutsideBoot := by
  rw [step_of_cons hops]
  exact hostOp_load_of_closed image hopen

/-- Settles O15, by the head of the queue. -/
theorem stepStopsOnlyAtALateLoad : Obligations.StepStopsOnlyAtALateLoad := by
  refine fun s => ⟨?_, fun _ _ => step_of_lateLoad⟩
  obtain ⟨-, h⟩ | ⟨op, rest, hops, h⟩ := step_cases s
  · rw [h]
    exact .inl (cycle_answers s)
  · obtain hnext | ⟨hopen, image, rfl⟩ := hostOp_answers_or_lateLoad op (s.setEnv { s.env with ops := rest })
    · rw [h]
      exact .inl hnext
    · exact .inr ⟨step_of_lateLoad hopen hops, hopen, image, rest, hops⟩

/-! ### The faults of each instruction (R241, R243) -/

section
variable {s t : State} {r : FaultRecord}

theorem raise_code {code : FaultCode} {op : Option Word} {addr : Option Nat} (h : raise code op addr s = .next t)
    (hr : t.fault = some r) : r.code = code := by
  cases h
  cases hr
  rfl

theorem execSys_code {nnn : Addr12} (hs : s.fault = none) (h : execSys nnn s = .next t) (hr : t.fault = some r) :
    r.code = .sysUnsupported := by
  cases hpolicy : s.cfg.sysPolicy with
  | nop =>
    cases (execSys_of_nop hpolicy).symm.trans h
    simp [hs] at hr
  | halt => exact raise_code ((execSys_of_halt hpolicy).symm.trans h) hr

theorem execRet_code (hs : s.fault = none) (h : execRet s = .next t) (hr : t.fault = some r) : r.code = .stackUnderflow := by
  obtain hsp | hsp := Nat.eq_zero_or_pos s.sp.val
  · exact raise_code ((execRet_of_zero hsp).symm.trans h) hr
  · cases (execRet_of_pos hsp).symm.trans h
    simp [hs] at hr

theorem execCall_code {nnn : Addr12} (hs : s.fault = none) (h : execCall nnn s = .next t) (hr : t.fault = some r) :
    r.code = .stackOverflow := by
  obtain hsp | hsp : s.sp.val < 16 ∨ s.sp.val = 16 := by omega
  · cases (execCall_of_lt hsp).symm.trans h
    simp [hs] at hr
  · exact raise_code ((execCall_of_full hsp).symm.trans h) hr

/-- A transfer faults by its checks, and the check of a read never answers ProtectedWrite (R180). -/
theorem guarded_code {i : Instr} {w : Bool} {base n : Nat} {body : State} (hbody : body.fault = none)
    (h : guarded i w base n s body = .next t) (hr : t.fault = some r) :
    r.code = .addressOutOfRange ∨ (r.code = .protectedWrite ∧ w = true) := by
  obtain ⟨-, rfl⟩ | ⟨code, a, hff, rfl⟩ := guarded_next h
  · simp [hbody] at hr
  · cases hr
    obtain ⟨k, -, -, hcheck, -⟩ := firstFailure_eq_some.mp hff
    obtain ⟨hcode, -⟩ | ⟨hcode, hw, -⟩ := check_some hcheck
    · exact .inl hcode
    · exact .inr ⟨hcode, hw⟩

theorem guardedRead_code {i : Instr} {base n : Nat} {body : State} (hbody : body.fault = none)
    (h : guarded i false base n s body = .next t) (hr : t.fault = some r) : r.code = .addressOutOfRange :=
  (guarded_code hbody h hr).resolve_right fun hprot => nomatch hprot.2

theorem guardedWrite_code {i : Instr} {base n : Nat} {body : State} (hbody : body.fault = none)
    (h : guarded i true base n s body = .next t) (hr : t.fault = some r) :
    r.code = .addressOutOfRange ∨ r.code = .protectedWrite :=
  (guarded_code hbody h hr).imp_right And.left

end

/-- Settles O14, by the cases of the instruction; one not listed leaves FAULT as it found it. -/
theorem instructionsThatCanFault : Obligations.InstructionsThatCanFault := by
  intro i s t r hs h hr
  cases i with
  | call nnn => exact .inl ⟨nnn, rfl, execCall_code hs h hr⟩
  | ret => exact .inr (.inl ⟨rfl, execRet_code hs h hr⟩)
  | sys nnn => exact .inr (.inr (.inl ⟨nnn, rfl, execSys_code hs h hr⟩))
  | drw x y n => exact .inr (.inr (.inr (.inl ⟨x, y, n, rfl, guardedRead_code (by simp [hs]) h hr⟩)))
  | ldVxMem x => exact .inr (.inr (.inr (.inr (.inl ⟨x, rfl, guardedRead_code (by simp [hs]) h hr⟩))))
  | ldB x => exact .inr (.inr (.inr (.inr (.inr ⟨x, .inl rfl, guardedWrite_code (by simp [hs]) h hr⟩))))
  | ldMemVx x => exact .inr (.inr (.inr (.inr (.inr ⟨x, .inr rfl, guardedWrite_code (by simp [hs]) h hr⟩))))
  | ldVxK x => obtain rfl | ⟨_, rfl⟩ := execLdVxK_next h <;> simp [hs] at hr
  | _ => cases h; simp [hs] at hr

/-! ### The host's queue: a step takes its head off and adds nothing (spec/10_state.md R38) -/

section
variable {s t : State}

theorem Env.draw_ops (e : Env) : e.draw.2.ops = e.ops := by
  unfold Env.draw
  split <;> rfl

theorem exec_ops {i : Instr} (h : exec i s = .next t) : t.env.ops = s.env.ops := by
  obtain ⟨-, -, -, -, -, -, -, -, -, henv | ⟨x, kk, rfl⟩⟩ := eachComponentHasItsWriters i s t h
  · rw [henv]
  · cases h
    exact s.env.draw_ops

theorem cycle_ops (h : cycle s = .next t) : t.env.ops = s.env.ops := by
  obtain rfl | ⟨-, ⟨_, _, _, rfl⟩ | ⟨-, ⟨i, hi⟩ | rfl⟩⟩ := cycle_next h
  · rfl
  · rfl
  · exact exec_ops (s := s.closeLoad) hi
  · rfl

theorem State.load_ops (s : State) (image : List Byte) : (s.load image).env.ops = s.env.ops := by
  unfold State.load
  split <;> simp [State.loadImage]

theorem hostOp_ops {op : HostOp} (h : hostOp op s = .next t) : t.env.ops = s.env.ops := by
  cases op with
  | cycle => exact cycle_ops h
  | load image => rw [hostOp_load_next h, State.load_ops]
  | tick => cases h; rfl
  | setKey k b => cases h; rfl
  | construct => cases h; rfl

theorem step_ops (h : step s = .next t) : t.env.ops = s.env.ops.tail := by
  obtain ⟨hops, he⟩ | ⟨op, rest, hops, he⟩ := step_cases s
  · rw [cycle_ops (he.symm.trans h), hops, List.tail_nil]
  · rw [hostOp_ops (he.symm.trans h), hops, List.tail_cons]
    rfl

/-- With no construction queued, a latched fault outlives the step. -/
theorem step_keeps_fault {r : FaultRecord} (hc : HostOp.construct ∉ s.env.ops) (hs : s.fault = some r)
    (h : step s = .next t) : t.fault = some r := by
  obtain ⟨-, he⟩ | ⟨op, rest, hops, he⟩ := step_cases s
  · exact hostOp_keeps_fault (op := .cycle) hs (he.symm.trans h) nofun
  · have hop : op ≠ .construct := by
      rintro rfl
      simp [hops] at hc
    exact hostOp_keeps_fault (s := s.setEnv { s.env with ops := rest }) hs (he.symm.trans h) hop

theorem step_fault_none (hc : HostOp.construct ∉ s.env.ops) (h : step s = .next t) (ht : t.fault = none) : s.fault = none :=
  Option.eq_none_iff_forall_ne_some.mpr fun _ hs => by simp [step_keeps_fault hc hs h] at ht

theorem step_no_construct (hc : HostOp.construct ∉ s.env.ops) (h : step s = .next t) : HostOp.construct ∉ t.env.ops :=
  fun hmem => hc (List.mem_of_mem_tail (step_ops h ▸ hmem))

end

/-! ### A run under HALT with no fault is a run under SKIP (R246) -/

section
variable {s t : State} {u : UnknownPolicy}

theorem State.writeBytes_withPolicy (s : State) (u : UnknownPolicy) (base : Nat) (bs : List Byte) :
    (s.withPolicy u).writeBytes base bs = (s.writeBytes base bs).withPolicy u := by
  induction bs generalizing s base with
  | nil => rfl
  | cons b rest ih => exact ih (s.writeByte base b) (base + 1)

theorem State.setRegLogic_withPolicy (s : State) (u : UnknownPolicy) (x : Nibble) (r : Byte) :
    (s.withPolicy u).setRegLogic x r = (s.setRegLogic x r).withPolicy u :=
  (apply_ite (State.withPolicy · u) (s.cfg.logicVfReset = true) ((s.setReg x r).setReg vF 0) (s.setReg x r)).symm

theorem execSys_withPolicy {nnn : Addr12} (h : execSys nnn s = .next t) :
    execSys nnn (s.withPolicy u) = .next (t.withPolicy u) := by
  cases hpolicy : s.cfg.sysPolicy with
  | nop =>
    cases (execSys_of_nop hpolicy).symm.trans h
    exact execSys_of_nop (s := s.withPolicy u) hpolicy
  | halt =>
    cases (execSys_of_halt hpolicy).symm.trans h
    exact execSys_of_halt (s := s.withPolicy u) hpolicy

theorem execRet_withPolicy (h : execRet s = .next t) : execRet (s.withPolicy u) = .next (t.withPolicy u) := by
  obtain hsp | hsp := Nat.eq_zero_or_pos s.sp.val
  · cases (execRet_of_zero hsp).symm.trans h
    exact execRet_of_zero (s := s.withPolicy u) hsp
  · cases (execRet_of_pos hsp).symm.trans h
    exact execRet_of_pos (s := s.withPolicy u) hsp

theorem execCall_withPolicy {nnn : Addr12} (h : execCall nnn s = .next t) :
    execCall nnn (s.withPolicy u) = .next (t.withPolicy u) := by
  obtain hsp | hsp : s.sp.val < 16 ∨ s.sp.val = 16 := by omega
  · cases (execCall_of_lt hsp).symm.trans h
    exact execCall_of_lt (s := s.withPolicy u) hsp
  · cases (execCall_of_full hsp).symm.trans h
    exact execCall_of_full (s := s.withPolicy u) hsp

theorem execLdVxK_withPolicy {x : Nibble} (h : execLdVxK x s = .next t) :
    execLdVxK x (s.withPolicy u) = .next (t.withPolicy u) := by
  cases hkey : s.leastHeldKey with
  | some k =>
    cases (exec_ldVxK_of_some hkey).symm.trans h
    exact exec_ldVxK_of_some (s := s.withPolicy u) hkey
  | none =>
    cases (exec_ldVxK_of_none hkey).symm.trans h
    exact exec_ldVxK_of_none (s := s.withPolicy u) hkey

theorem guarded_withPolicy {i : Instr} {w : Bool} {base n : Nat} {body : State} (h : guarded i w base n s body = .next t) :
    guarded i w base n (s.withPolicy u) (body.withPolicy u) = .next (t.withPolicy u) := by
  obtain ⟨hff, rfl⟩ | ⟨code, a, hff, rfl⟩ := guarded_next h
  · exact guarded_of_none hff
  · exact guarded_of_some hff

/-- No instruction reads UNKNOWN_OPCODE_POLICY. -/
theorem exec_withPolicy {i : Instr} (h : exec i s = .next t) : exec i (s.withPolicy u) = .next (t.withPolicy u) := by
  cases i with
  | sys nnn => exact execSys_withPolicy h
  | ret => exact execRet_withPolicy h
  | call nnn => exact execCall_withPolicy h
  | ldVxK x => exact execLdVxK_withPolicy h
  | orReg x y => cases h; simp only [exec, execOrReg, State.setRegLogic_withPolicy]; rfl
  | andReg x y => cases h; simp only [exec, execAndReg, State.setRegLogic_withPolicy]; rfl
  | xorReg x y => cases h; simp only [exec, execXorReg, State.setRegLogic_withPolicy]; rfl
  | ldB x =>
    simp only [exec, execLdB, State.writeBytes_withPolicy]
    exact guarded_withPolicy h
  | ldMemVx x =>
    simp only [exec, execLdMemVx, State.writeBytes_withPolicy]
    exact guarded_withPolicy h
  | drw x y n => exact guarded_withPolicy h
  | ldVxMem x => exact guarded_withPolicy h
  | _ => cases h; rfl

/-- Under HALT an `Unknown` word leaves a fault, so a word that leaves none is an instruction. -/
theorem execWord_withPolicy {op : Word} (hhalt : s.cfg.unknownPolicy = some .halt) (h : execWord op s = .next t)
    (ht : t.fault = none) : execWord op (s.withPolicy u) = .next (t.withPolicy u) := by
  cases hd : decode op with
  | instr i =>
    rw [execWord_of_instr hd] at h ⊢
    exact exec_withPolicy h
  | unknown w =>
    rw [execWord_of_unknown hd, execUnknown_of_halt w hhalt] at h
    cases h
    cases ht

theorem cycle_withPolicy (hhalt : s.cfg.unknownPolicy = some .halt) (h : cycle s = .next t) (ht : t.fault = none) :
    cycle (s.withPolicy u) = .next (t.withPolicy u) := by
  obtain ⟨hf, ho⟩ | ⟨-, a, -, ho⟩ | ⟨hf, op, hfetch, ho⟩ := cycle_cases h
  · cases ho
    exact absurd ht hf
  · cases ho
    cases ht
  · rw [cycle_of_word (s := s.withPolicy u) hf hfetch]
    exact execWord_withPolicy (s := s.closeLoad) hhalt ho.symm ht

theorem State.load_withPolicy (s : State) (u : UnknownPolicy) (image : List Byte) :
    (s.withPolicy u).load image = (s.load image).withPolicy u := by
  simp only [State.load, State.loadImage, State.writeBytes_withPolicy]
  split <;> rfl

theorem hostOp_withPolicy {op : HostOp} (hhalt : s.cfg.unknownPolicy = some .halt) (h : hostOp op s = .next t)
    (ht : t.fault = none) : hostOp op (s.withPolicy u) = .next (t.withPolicy u) := by
  cases op with
  | cycle => exact cycle_withPolicy hhalt h ht
  | tick => cases h; rfl
  | setKey k b => cases h; rfl
  | construct => cases h; rfl
  | load image =>
    cases hopen : s.env.loadOpen with
    | true =>
      cases (hostOp_load_of_open image hopen).symm.trans h
      rw [← State.load_withPolicy]
      exact hostOp_load_of_open (s := s.withPolicy u) image hopen
    | false => cases (hostOp_load_of_closed image hopen).symm.trans h

theorem step_withPolicy (hhalt : s.cfg.unknownPolicy = some .halt) (h : step s = .next t) (ht : t.fault = none) :
    step (s.withPolicy u) = .next (t.withPolicy u) := by
  obtain ⟨hops, he⟩ | ⟨op, rest, hops, he⟩ := step_cases s
  · rw [step_of_empty (s := s.withPolicy u) hops]
    exact cycle_withPolicy hhalt (he.symm.trans h) ht
  · rw [step_of_cons (s := s.withPolicy u) hops]
    exact hostOp_withPolicy (s := s.setEnv { s.env with ops := rest }) hhalt (he.symm.trans h) ht

theorem coreRun_succ_of_next {M : Host.Core} {k : Nat} {a b : M.State} (h : M.step a = .next b) :
    M.run (k + 1) a = M.run k b := by
  simp only [Host.Core.run, h]

theorem coreRun_succ_next {M : Host.Core} {k : Nat} {a c : M.State} (h : M.run (k + 1) a = .next c) :
    ∃ b, M.step a = .next b ∧ M.run k b = .next c := by
  cases hstep : M.step a with
  | next b => exact ⟨b, rfl, (coreRun_succ_of_next hstep).symm.trans h⟩
  | fault e => simp [Host.Core.run, hstep] at h
  | refused e => simp [Host.Core.run, hstep] at h

/-- The faults are followed back from the end of the run: none is recorded there, so none was found by any step. -/
theorem run_withPolicy {k : Nat} (hhalt : s.cfg.unknownPolicy = some .halt) (hc : HostOp.construct ∉ s.env.ops)
    (h : core.run k s = .next t) (ht : t.fault = none) :
    s.fault = none ∧ core.run k (s.withPolicy u) = .next (t.withPolicy u) := by
  induction k generalizing s with
  | zero =>
    cases h
    exact ⟨ht, rfl⟩
  | succ k ih =>
    obtain ⟨m, hm, hrun⟩ := coreRun_succ_next h
    have hmhalt : m.cfg.unknownPolicy = some .halt := by rw [noStepWritesTheConfiguration s m hm, hhalt]
    obtain ⟨hmf, hrun'⟩ := ih hmhalt (step_no_construct hc hm) hrun
    have hstep : step (s.withPolicy u) = .next (m.withPolicy u) := step_withPolicy hhalt hm hmf
    exact ⟨step_fault_none hc hm hmf, (coreRun_succ_of_next (M := core) hstep).trans hrun'⟩

end

/-- Settles O11, by induction on the number of steps: no state on the way has a fault, so each step is the step under SKIP. -/
theorem haltRunWithoutFaultIsASkipRun : Obligations.HaltRunWithoutFaultIsASkipRun := fun _ _ _ hhalt hc h ht =>
  (run_withPolicy hhalt hc h ht).2

end Sys2Proof.Machine

/-! The reset and hazards family (spec/70_reset_and_hazards.md): SETKEY and LOAD. -/

namespace Sys2Proof.Machine

/-! ### SETKEY (R292) -/

theorem unchangedExcept_setKey (s : State) (k : Nibble) (b : Bool) : UnchangedExcept [.key] s (s.setKey k b) := by
  refine ⟨rfl, fun p hp => ?_⟩
  cases p with
  | key => exact absurd (List.mem_singleton_self _) hp
  | _ => simp [Part.Same]

/-- Settles O51: SETKEY writes the one key in KEY. -/
theorem setKeyWritesOneKey : Obligations.SetKeyWritesOneKey := fun s k b =>
  ⟨s.setKey k b, rfl, fun j => s.keyHeld_setKey k j b, unchangedExcept_setKey s k b⟩

/-! ### LOAD, by the length of the image (R283, R290) -/

theorem State.load_of_fits {s : State} {image : List Byte} (h : image.length ≤ maxImage) :
    s.load image = (s.loadImage image).setEnv { s.env with loadReply := some .ok, loadOpen := false } :=
  if_neg (Nat.not_lt.mpr h)

theorem State.load_of_tooLong {s : State} {image : List Byte} (h : maxImage < image.length) :
    s.load image = s.setEnv { s.env with loadReply := some .capacityExceeded } :=
  if_pos h

theorem unchangedExcept_setEnv (s : State) (e : Env) : UnchangedExcept [.env] s (s.setEnv e) := by
  refine ⟨rfl, fun p hp => ?_⟩
  cases p with
  | env => exact absurd (List.mem_singleton_self _) hp
  | _ => simp [Part.Same]

theorem unchangedExcept_load (s : State) (image : List Byte) : UnchangedExcept [.mem, .env] s (s.load image) := by
  obtain hfits | hlong := le_or_gt image.length maxImage
  · rw [State.load_of_fits hfits]
    exact (unchangedExcept_writeBytes s progBase image).trans (unchangedExcept_setEnv _ _)
  · rw [State.load_of_tooLong hlong]
    exact (UnchangedExcept.refl [.mem] s).trans (unchangedExcept_setEnv s _)

/-- Settles O52, by whether the image fits: a fitting one is a run of bytes written from 0x200 on. -/
theorem loadCopiesTheImage : Obligations.LoadCopiesTheImage := by
  refine fun s image hopen =>
    ⟨s.load image, hostOp_load_of_open image hopen, unchangedExcept_load s image, fun hfits => ?_, fun hlong => ?_⟩
  · rw [State.load_of_fits hfits]
    exact ⟨rfl, rfl, bytesUnchangedOutside_writeBytes s progBase image, fun _ => s.readByte_writeBytes_inside⟩
  · rw [State.load_of_tooLong hlong]
    exact ⟨rfl, hopen, fun _ => rfl⟩

end Sys2Proof.Machine
